-- ==== Sys2Proof/Word.lean ====
section
/-! DEFINITION. The word and byte types of the core (00_scope.md R5: VW = CW = 64, BYTE = 8). -/

namespace Sys2Proof

/-- A value operand, a result, a cursor, a bit capacity, a byte address held on the port (R5, R8). -/
abbrev Word := BitVec 64

/-- One buffer unit (R5: "a contiguous sequence of 8-bit units"). -/
abbrev Byte := BitVec 8

end Sys2Proof
end

