-- ==== Sys2Proof/Syntax.lean ====
section
/-! DEFINITION. The command packet and the 22 commands (30_encoding.md R80 to R84). -/

namespace Sys2Proof

/-- The command packet of R80: the command word and three operands, 208 bits in all. -/
structure Packet where
  cmd : BitVec 16
  a0 : Word
  a1 : Word
  a2 : Word
  deriving DecidableEq, Repr

/-- The origin field of format S (R82): 0 Start, 1 Current, 2 End, 3 reserved (answered IllegalCommand, R87). -/
inductive Origin
  | start | current | fromEnd | reserved
  deriving DecidableEq, Repr

/-- The commands, one constructor per row of R84, with the operands the row uses (R83; an operand a command does not
use is ignored, D27). `width` is ARG[6:0] of format F, a count of bits that may also be illegal (R85, R86). -/
inductive Instr
  | wBorrow (base nbytes : Word)
  | wOwn (base nbytes token : Word)
  | wAlloc
  | wUnbind
  | wSeek (origin : Origin) (offset : Word)
  | wTell
  | wEnsure (bits : Word)
  | wBit (bit : Word)
  | wUint (width : Nat) (value : Word)
  | wInt (width : Nat) (value : Word)
  | wInts (width : Nat) (value : Word)
  | wData
  | wSize
  | rBorrow (base nbytes : Word)
  | rOwn (base nbytes token : Word)
  | rUnbind
  | rSeek (origin : Origin) (offset : Word)
  | rTell
  | rBit
  | rUint (width : Nat)
  | rInt (width : Nat)
  | rInts (width : Nat)
  deriving DecidableEq, Repr

/-- The mnemonic of R84. -/
def Instr.mnemonic : Instr → String
  | .wBorrow _ _ => "W.BORROW"
  | .wOwn _ _ _ => "W.OWN"
  | .wAlloc => "W.ALLOC"
  | .wUnbind => "W.UNBIND"
  | .wSeek _ _ => "W.SEEK"
  | .wTell => "W.TELL"
  | .wEnsure _ => "W.ENSURE"
  | .wBit _ => "W.BIT"
  | .wUint _ _ => "W.UINT"
  | .wInt _ _ => "W.INT"
  | .wInts _ _ => "W.INTS"
  | .wData => "W.DATA"
  | .wSize => "W.SIZE"
  | .rBorrow _ _ => "R.BORROW"
  | .rOwn _ _ _ => "R.OWN"
  | .rUnbind => "R.UNBIND"
  | .rSeek _ _ => "R.SEEK"
  | .rTell => "R.TELL"
  | .rBit => "R.BIT"
  | .rUint _ => "R.UINT"
  | .rInt _ => "R.INT"
  | .rInts _ => "R.INTS"

/-- How many of the operands A0, A1, A2 (always the first ones) the command uses (R83, R84). -/
def Instr.operandCount : Instr → Nat
  | .wOwn _ _ _ | .rOwn _ _ _ => 3
  | .wBorrow _ _ | .rBorrow _ _ => 2
  | .wSeek _ _ | .rSeek _ _ | .wEnsure _ | .wBit _ | .wUint _ _ | .wInt _ _ | .wInts _ _ => 1
  | .wAlloc | .wUnbind | .wTell | .wData | .wSize | .rUnbind | .rTell | .rBit | .rUint _ | .rInt _ | .rInts _ => 0

end Sys2Proof
end

