-- ==== Sys2Proof/WellFormed.lean ====
section
/-! DEFINITION. Which terms of Instr the encoding can express. -/

namespace Sys2Proof

/-- A width fits the seven bits ARG[6:0] of format F (30_encoding.md R82: "unsigned 0..127"). -/
def widthEncodable (width : Nat) : Bool := width < 128

/-- A command is well formed when every field fits its place in the packet. An illegal width (0 or 65 .. 127, R86) and
the reserved origin (R87) ARE well formed: such words decode and are answered IllegalCommand (log 21). -/
def Instr.wellFormed : Instr → Bool
  | .wUint width _ => widthEncodable width
  | .wInt width _ => widthEncodable width
  | .wInts width _ => widthEncodable width
  | .rUint width => widthEncodable width
  | .rInt width => widthEncodable width
  | .rInts width => widthEncodable width
  | .wBorrow _ _ | .wOwn _ _ _ | .wAlloc | .wUnbind | .wSeek _ _ | .wTell | .wEnsure _ | .wBit _ | .wData | .wSize
  | .rBorrow _ _ | .rOwn _ _ _ | .rUnbind | .rSeek _ _ | .rTell | .rBit => true

end Sys2Proof
end

