-- ==== Sys2Proof/Decode.lean ====
section
/-! DEFINITION. The decoder of command packets, total, and the encoder beside it (30_encoding.md R81 to R91). -/

namespace Sys2Proof

/-- Why a word is reserved (R88): Z is not zero, no such operation on the unit, a must-be-zero bit of ARG is set. -/
inductive Reject
  | zNotZero | noSuchOperation | argNotZero
  deriving DecidableEq, Repr

/-! ## The fields of the command word (R81) -/

def unitField (c : BitVec 16) : BitVec 1 := c.extractLsb' 15 1
def zField (c : BitVec 16) : BitVec 3 := c.extractLsb' 12 3
def opField (c : BitVec 16) : BitVec 4 := c.extractLsb' 8 4
def argField (c : BitVec 16) : BitVec 8 := c.extractLsb' 0 8

/-- The origin codes of R82. -/
def Origin.ofCode : Nat → Origin
  | 0 => .start
  | 1 => .current
  | 2 => .fromEnd
  | _ => .reserved

/-- Format N: ARG must be zero (R82). -/
def formatN (arg : BitVec 8) (i : Instr) : Except Reject Instr :=
  if arg = 0#8 then .ok i else .error .argNotZero

/-- Format F: ARG[7] must be zero, ARG[6:0] is the width (R82). -/
def formatF (arg : BitVec 8) (make : Nat → Instr) : Except Reject Instr :=
  if arg.toNat < 128 then .ok (make arg.toNat) else .error .argNotZero

/-- Format S: ARG[7:2] must be zero, ARG[1:0] is the origin (R82). -/
def formatS (arg : BitVec 8) (make : Origin → Instr) : Except Reject Instr :=
  if arg.toNat < 4 then .ok (make (Origin.ofCode arg.toNat)) else .error .argNotZero

/-- The Write Unit's rows of R84. -/
def decodeWrite (op : Nat) (arg : BitVec 8) (p : Packet) : Except Reject Instr :=
  match op with
  | 0x1 => formatN arg (.wBorrow p.a0 p.a1)
  | 0x2 => formatN arg (.wOwn p.a0 p.a1 p.a2)
  | 0x3 => formatN arg .wAlloc
  | 0x4 => formatN arg .wUnbind
  | 0x5 => formatS arg (fun origin => .wSeek origin p.a0)
  | 0x6 => formatN arg .wTell
  | 0x7 => formatN arg (.wEnsure p.a0)
  | 0x8 => formatN arg (.wBit p.a0)
  | 0x9 => formatF arg (fun width => .wUint width p.a0)
  | 0xA => formatF arg (fun width => .wInt width p.a0)
  | 0xB => formatF arg (fun width => .wInts width p.a0)
  | 0xC => formatN arg .wData
  | 0xD => formatN arg .wSize
  | _ => .error .noSuchOperation

/-- The Read Unit's rows of R84: no self-allocate, no ensure, no accessors (R88, D17). -/
def decodeRead (op : Nat) (arg : BitVec 8) (p : Packet) : Except Reject Instr :=
  match op with
  | 0x1 => formatN arg (.rBorrow p.a0 p.a1)
  | 0x2 => formatN arg (.rOwn p.a0 p.a1 p.a2)
  | 0x4 => formatN arg .rUnbind
  | 0x5 => formatS arg (fun origin => .rSeek origin p.a0)
  | 0x6 => formatN arg .rTell
  | 0x8 => formatN arg .rBit
  | 0x9 => formatF arg (fun width => .rUint width)
  | 0xA => formatF arg (fun width => .rInt width)
  | 0xB => formatF arg (fun width => .rInts width)
  | _ => .error .noSuchOperation

/-- R85: every packet is exactly one command or is reserved. -/
def decode (p : Packet) : Except Reject Instr :=
  if zField p.cmd ≠ 0#3 then .error .zNotZero
  else if unitField p.cmd = 0#1 then decodeWrite (opField p.cmd).toNat (argField p.cmd) p
  else decodeRead (opField p.cmd).toNat (argField p.cmd) p

/-! ## The table's numbering of a packet's bits -/

/-- A packet from one number (log 1): CMD is bits 15:0, A0 bits 79:16, A1 bits 143:80, A2 bits 207:144, the order of R80. -/
def Packet.ofNat (n : Nat) : Packet :=
  { cmd := BitVec.ofNat 16 n
    a0 := BitVec.ofNat 64 (n / 2 ^ 16)
    a1 := BitVec.ofNat 64 (n / 2 ^ 80)
    a2 := BitVec.ofNat 64 (n / 2 ^ 144) }

/-- The packet whose lowest `nbits` bits are those of `w` and whose other bits are 0. -/
def Packet.ofTable (nbits w : Nat) : Packet := Packet.ofNat (w % 2 ^ nbits)

/-- What the decoder reads from a word numbered as spec/opcode_table.json numbers it. -/
def decodeTableWord (nbits w : Nat) : Option Instr := (decode (Packet.ofTable nbits w)).toOption

/-! ## The encoder (R91: `CMD = U << 15 | OP << 8 | ARG`, unused operands 0) -/

def Origin.code : Origin → Nat
  | .start => 0
  | .current => 1
  | .fromEnd => 2
  | .reserved => 3

/-- The command word with the four fields of R81, Z zero. -/
def commandWord (unit : BitVec 1) (op : BitVec 4) (arg : BitVec 8) : BitVec 16 := unit ++ 0#3 ++ op ++ arg

def encode : Instr → Packet
  | .wBorrow base nbytes => ⟨commandWord 0 0x1 0, base, nbytes, 0⟩
  | .wOwn base nbytes token => ⟨commandWord 0 0x2 0, base, nbytes, token⟩
  | .wAlloc => ⟨commandWord 0 0x3 0, 0, 0, 0⟩
  | .wUnbind => ⟨commandWord 0 0x4 0, 0, 0, 0⟩
  | .wSeek origin offset => ⟨commandWord 0 0x5 (BitVec.ofNat 8 origin.code), offset, 0, 0⟩
  | .wTell => ⟨commandWord 0 0x6 0, 0, 0, 0⟩
  | .wEnsure bits => ⟨commandWord 0 0x7 0, bits, 0, 0⟩
  | .wBit bit => ⟨commandWord 0 0x8 0, bit, 0, 0⟩
  | .wUint width value => ⟨commandWord 0 0x9 (BitVec.ofNat 8 width), value, 0, 0⟩
  | .wInt width value => ⟨commandWord 0 0xA (BitVec.ofNat 8 width), value, 0, 0⟩
  | .wInts width value => ⟨commandWord 0 0xB (BitVec.ofNat 8 width), value, 0, 0⟩
  | .wData => ⟨commandWord 0 0xC 0, 0, 0, 0⟩
  | .wSize => ⟨commandWord 0 0xD 0, 0, 0, 0⟩
  | .rBorrow base nbytes => ⟨commandWord 1 0x1 0, base, nbytes, 0⟩
  | .rOwn base nbytes token => ⟨commandWord 1 0x2 0, base, nbytes, token⟩
  | .rUnbind => ⟨commandWord 1 0x4 0, 0, 0, 0⟩
  | .rSeek origin offset => ⟨commandWord 1 0x5 (BitVec.ofNat 8 origin.code), offset, 0, 0⟩
  | .rTell => ⟨commandWord 1 0x6 0, 0, 0, 0⟩
  | .rBit => ⟨commandWord 1 0x8 0, 0, 0, 0⟩
  | .rUint width => ⟨commandWord 1 0x9 (BitVec.ofNat 8 width), 0, 0, 0⟩
  | .rInt width => ⟨commandWord 1 0xA (BitVec.ofNat 8 width), 0, 0, 0⟩
  | .rInts width => ⟨commandWord 1 0xB (BitVec.ofNat 8 width), 0, 0, 0⟩

/-! ## The opcode map as the spec tabulates it (R84), for claims about the decoder -/

/-- One row of R84. -/
structure OpcodeRow where
  mnemonic : String
  pattern : BitVec 16
  mask : BitVec 16
  deriving DecidableEq, Repr

/-- "a command word c selects the row when `c & mask = match`" (R84). -/
def OpcodeRow.selects (row : OpcodeRow) (c : BitVec 16) : Bool := c &&& row.mask == row.pattern

def writeRows : List OpcodeRow :=
  [⟨"W.BORROW", 0x0100, 0xFFFF⟩, ⟨"W.OWN", 0x0200, 0xFFFF⟩, ⟨"W.ALLOC", 0x0300, 0xFFFF⟩, ⟨"W.UNBIND", 0x0400, 0xFFFF⟩,
   ⟨"W.SEEK", 0x0500, 0xFFFC⟩, ⟨"W.TELL", 0x0600, 0xFFFF⟩, ⟨"W.ENSURE", 0x0700, 0xFFFF⟩, ⟨"W.BIT", 0x0800, 0xFFFF⟩,
   ⟨"W.UINT", 0x0900, 0xFF80⟩, ⟨"W.INT", 0x0A00, 0xFF80⟩, ⟨"W.INTS", 0x0B00, 0xFF80⟩, ⟨"W.DATA", 0x0C00, 0xFFFF⟩,
   ⟨"W.SIZE", 0x0D00, 0xFFFF⟩]

def readRows : List OpcodeRow :=
  [⟨"R.BORROW", 0x8100, 0xFFFF⟩, ⟨"R.OWN", 0x8200, 0xFFFF⟩, ⟨"R.UNBIND", 0x8400, 0xFFFF⟩, ⟨"R.SEEK", 0x8500, 0xFFFC⟩,
   ⟨"R.TELL", 0x8600, 0xFFFF⟩, ⟨"R.BIT", 0x8800, 0xFFFF⟩, ⟨"R.UINT", 0x8900, 0xFF80⟩, ⟨"R.INT", 0x8A00, 0xFF80⟩,
   ⟨"R.INTS", 0x8B00, 0xFF80⟩]

/-- The 22 rows of R84. -/
def opcodeRows : List OpcodeRow := writeRows ++ readRows

end Sys2Proof
end

