-- ==== Sys2Proof/Config.lean ====
section
/-! DEFINITION. The implementation parameters of the core and the free values of the model. -/

namespace Sys2Proof

/-- The OPEN parameters of 00_scope.md R5. They are fixed for a machine; State carries them as plain data
(log 4: exec and step take no other argument) and no step changes them. -/
structure Params where
  /-- width of a byte address of `Mem` (D5) -/
  aw : Nat
  /-- byte length of a freshly self-allocated buffer (D13) -/
  initBytes : Nat
  /-- the region the allocator may hand out (D14) -/
  heapBase : Nat
  heapBytes : Nat
  deriving DecidableEq, Repr

/-- `NBYTES_MAX` of R5: the greatest byte length of a buffer. -/
def maxBytes : Nat := 2 ^ 61 - 1

/-- The constraints R5 lays on the parameters. -/
abbrev Params.ok (p : Params) : Prop :=
  1 ≤ p.aw ∧ p.aw ≤ 64 ∧ 1 ≤ p.initBytes ∧ p.initBytes ≤ p.heapBytes ∧ p.heapBytes ≤ maxBytes ∧
    p.heapBase + p.heapBytes ≤ 2 ^ p.aw

/-- The fields of the units that a rule leaves `unspecified` (R35, R36, R180, R182 to R186): the names under which
free values are drawn for them (log 6). -/
inductive Slot
  | wVariant | wOwn | wToken | wBase | wCap | wCur
  | rOwn | rToken | rBase | rCap | rCur
  deriving DecidableEq, Repr

/- FREE VALUES (00_scope.md R7, `draw` and `unspecified`; log 5, 7, 9). They have no body: nothing can be proved of
their values, so a claim holds whatever they are. The first argument is the number of the draw. -/

/-- The byte an address holds after the draw `d` made it unspecified (R112 step 5, R182, R183). -/
opaque Config.freeByte (d : Nat) (addr : Nat) : Byte

/-- The byte an address holds at power-on (R31, R36: "at power-on every byte is unspecified"). -/
opaque Config.powerOnByte (addr : Nat) : Byte

/-- The allocator's choice at the draw `d` (R112 step 4, R182), before it is brought into its range. -/
opaque Config.freeOffset (d : Nat) : Nat

/-- The value a 64-bit field of a unit takes when it becomes unspecified at the draw `d`. -/
opaque Config.freeWord (d : Nat) (slot : Slot) : Word

/-- The value a one-bit field of a unit takes when it becomes unspecified at the draw `d`. -/
opaque Config.freeBool (d : Nat) (slot : Slot) : Bool

end Sys2Proof
end

