-- ==== Sys2Proof/Machine/State.lean ====
section
/-! DEFINITION. The state of the core as plain data (10_state.md), the reasons a step can stop, and the state after reset. -/

namespace Sys2Proof.Machine

/-- The write-sink variant (R22, R27). -/
inductive Variant
  | fixed | growable
  deriving DecidableEq, Repr

/-- Ownership of a buffer (R22, R28). -/
inductive Ownership
  | borrowed | owned
  deriving DecidableEq, Repr

/-- The Write Unit (R22). `base` is AW bits wide and is held in a 64-bit word (log 23); `cap` and `cur` count bits. -/
structure WriteUnit where
  bound : Bool
  variant : Variant
  own : Ownership
  token : Word
  base : Word
  cap : Word
  cur : Word
  deriving DecidableEq, Repr

/-- The Read Unit (R23): as the Write Unit, with no variant. -/
structure ReadUnit where
  bound : Bool
  own : Ownership
  token : Word
  base : Word
  cap : Word
  cur : Word
  deriving DecidableEq, Repr

/-- A region whose bytes a rule made unspecified, and the draw at which it did (log 8). -/
structure Forgotten where
  lo : Nat
  len : Nat
  draw : Nat
  deriving DecidableEq, Repr

/-- `Mem` (R31): the bytes that hold a known value, addresses strictly rising, and the regions that became unspecified,
latest first. A byte that is not listed holds a free value (log 7, 8). -/
structure Memory where
  cells : List Host.Cell
  forgotten : List Forgotten
  deriving DecidableEq, Repr

/-- One release event `(token, base, nbytes)` (R32, R187). -/
structure ReleaseEvent where
  token : Word
  base : Word
  nbytes : Nat
  deriving DecidableEq, Repr

/-- The status of a response (60_exceptions.md R200); its codes are in Flags.lean. -/
inductive Status
  | ok | insufficientSpace | insufficientData | illegalCommand | badBindState | badRegion | growthExhausted
  deriving DecidableEq, Repr

/-- One response: STATUS and RESULT (30_encoding.md R80). -/
structure Response where
  status : Status
  result : Word
  deriving DecidableEq, Repr

/-- What the host does to the core between commands (R11, R246; log 2): present a packet, write one byte of `Mem`,
reset the core. Reading `Mem` or a response changes nothing and needs no action. -/
inductive HostAction
  | command (packet : Packet)
  | write (addr : Nat) (value : Byte)
  | reset
  deriving DecidableEq, Repr

/-- The whole state (10_state.md: "the Write Unit record, the Read Unit record, the data memory and the release log"),
and the model's own fields: the responses given, the host's coming actions, the draw counter, the parameters. -/
structure State where
  w : WriteUnit
  r : ReadUnit
  mem : Memory
  relLog : List ReleaseEvent
  responses : List Response
  pending : List HostAction
  draws : Nat
  params : Params
  deriving DecidableEq, Repr

/-- Why a step stops with a fault. -/
inductive Fault
  /-- A byte access of a command, or a write of the host, at an address at or above 2^AW, which does not exist (R31,
  R50). Raised by the write, read, ensure commands only in states that break R24, and by the host's write. Safe: the
  model stops. -/
  | noSuchAddress
  deriving DecidableEq, Repr

/-- Why a step is refused. -/
inductive Refusal
  /-- An instruction without a meaning. Raised by no arm of exec. Safe. -/
  | notModelled (mnemonic : String)
  /-- The host writes a byte of the heap region (R241, U5: treatment refuse). Raised by the host's write only, by no
  command. Safe: the model says nothing of such a run. -/
  | hostWroteHeap
  deriving DecidableEq, Repr

/-- What a meaning answers. -/
abbrev Outcome := Host.Outcome State Fault Refusal

/-- The parameters of the reset state: AW and INIT_BYTES are R5's defaults; the spec gives none for the heap (log 4). -/
def standardParams : Params := { aw := 64, initBytes := 16, heapBase := 0x10000, heapBytes := 0x1000 }

/-- The machine right after reset at power-on (R36, R230): both units unbound, the release log empty, no byte known. The
other fields are unspecified there and never read; the zeros are the model's (log 6). -/
def State.reset : State :=
  { w := { bound := false, variant := .fixed, own := .borrowed, token := 0, base := 0, cap := 0, cur := 0 }
    r := { bound := false, own := .borrowed, token := 0, base := 0, cap := 0, cur := 0 }
    mem := { cells := [], forgotten := [] }
    relLog := []
    responses := []
    pending := []
    draws := 0
    params := standardParams }

end Sys2Proof.Machine
end

