-- ==== Sys2Proof/Machine/Operands.lean ====
section
/-! DEFINITION. The operand forms: which argument fields and operands are legal (30_encoding.md R83, R86, R87), the origin
bases of a seek, the region check, the readings of a 64-bit word, the mask tables. -/

namespace Sys2Proof.Machine

/-- R86: the legal widths of all six format-F commands are 1 .. 64. -/
def widthLegal (width : Nat) : Bool := 1 ≤ width && width ≤ 64

/-- R87: origin 3 is illegal. -/
def originLegal : Origin → Bool
  | .start | .current | .fromEnd => true
  | .reserved => false

/-- R133, R203: the operand of W.BIT must be the word 0 or the word 1. -/
def bitLegal (bit : Word) : Bool := bit.toNat ≤ 1

/-- The base a seek adds its offset to (R130, R160): 0, the cursor, the bit capacity. -/
def originBase (origin : Origin) (cur cap : Word) : Word :=
  match origin with
  | .start => 0
  | .current => cur
  | .fromEnd => cap
  | .reserved => 0

/-- The cursor after a seek, `(origin base + offset) mod 2^64` (R130, R160, R119 (d)). -/
def seekTarget (origin : Origin) (offset cur cap : Word) : Word := originBase origin cur cap + offset

/-- `RegionOK(A0, A1)` of R188: (a) the length is at most NBYTES_MAX, (b) the base is an address, (c) no wrap, in unbounded
integers. -/
def regionOk (p : Params) (base nbytes : Word) : Bool :=
  nbytes.toNat ≤ maxBytes && base.toNat < 2 ^ p.aw && base.toNat + nbytes.toNat ≤ 2 ^ p.aw

/-- The bit capacity of a buffer of `nbytes` bytes (R26, R119 (a)). -/
def bitCapacity (nbytes : Nat) : Word := BitVec.ofNat 64 (8 * nbytes)

/-- `signed(v)` of R7: the integer a word stands for in two's complement. -/
def signed (v : Word) : Int := if v.getLsbD 63 then (v.toNat : Int) - 2 ^ 64 else v.toNat

/-- The sign bit W.INTS writes (R116, R136): 1 if the value is negative. -/
def signBit (v : Word) : Bool := decide (signed v < 0)

/-- The magnitude W.INTS writes (R116, R136, D11): the mathematical absolute value, 0 .. 2^63, as a word. -/
def magnitude (v : Word) : Word := BitVec.ofNat 64 (signed v).natAbs

/-! ## The mask tables -/

/-- `LOW[k]`, the byte whose low k bits are 1 (R100). -/
def lowMask (k : Nat) : Byte := BitVec.ofNat 8 (2 ^ k - 1)

/-- `SETM[i]`, the byte with only the bit at MSB-first position i set (R101). -/
def setMask (i : Nat) : Byte := 0x80#8 >>> i

/-- `CLRM[i]`, every bit set but the one at MSB-first position i (R102). -/
def clearMask (i : Nat) : Byte := 0xFF#8 - setMask i

end Sys2Proof.Machine
end

