-- ==== Sys2Proof/Machine/Ops.lean ====
section
/-! DEFINITION. The named operations the commands are built from: `Mem`, stream bits, the write and read
micro-operations, the capacity check and growth, binding, the response, failing, and what the host does. -/

namespace Sys2Proof.Machine

/-! ## `Mem` (10_state.md R31, 20_memory.md R50, R57) -/

/-- The listed byte of an address, if there is one. -/
def cellsLookup : List Host.Cell → Nat → Option Byte
  | [], _ => none
  | (a, v) :: rest, x => if x = a then some v else cellsLookup rest x

/-- List a byte at its place in the rising order. -/
def cellsInsert : List Host.Cell → Nat → Byte → List Host.Cell
  | [], x, v => [(x, v)]
  | (a, b) :: rest, x, v =>
    if x < a then (x, v) :: (a, b) :: rest
    else if x = a then (x, v) :: rest
    else (a, b) :: cellsInsert rest x v

/-- The canonical form: addresses strictly rising. An unlisted address has no known byte, so no entry repeats it (log 7). -/
abbrev Memory.wf (m : Memory) : Prop := m.cells.Pairwise (fun x y => x.1 < y.1)

/-- The byte an unlisted address holds: that of the latest draw that made it unspecified, else that of power-on. -/
def unlistedByte : List Forgotten → Nat → Byte
  | [], x => Config.powerOnByte x
  | f :: rest, x => if f.lo ≤ x ∧ x < f.lo + f.len then Config.freeByte f.draw x else unlistedByte rest x

/-- `MemRead(a, 1)` (R7). -/
def Memory.read (m : Memory) (a : Nat) : Byte := (cellsLookup m.cells a).getD (unlistedByte m.forgotten a)

/-- `MemWrite(a, 1, v)` (R7). -/
def Memory.write (m : Memory) (a : Nat) (v : Byte) : Memory := { m with cells := cellsInsert m.cells a v }

/-- Write consecutive bytes from an address up. -/
def Memory.writeList (m : Memory) (a : Nat) : List Byte → Memory
  | [] => m
  | v :: rest => (m.write a v).writeList (a + 1) rest

/-- Every byte of `[lo, lo + len)` becomes unspecified, at the draw `d` (R112 step 5, R182, R183). -/
def Memory.forget (m : Memory) (lo len d : Nat) : Memory :=
  { cells := m.cells.filter (fun c => decide (c.1 < lo ∨ lo + len ≤ c.1))
    forgotten := ⟨lo, len, d⟩ :: m.forgotten }

/-- The `len` bytes from an address up, as they are. -/
def Memory.bytes (m : Memory) (a len : Nat) : List Byte := (List.range len).map (fun j => m.read (a + j))

/-- R112 steps 4 and 5: snapshot the old buffer, make both regions unspecified, write the snapshot at the new base. -/
def Memory.relocate (m : Memory) (old oldLen new newLen d : Nat) : Memory :=
  ((m.forget old oldLen d).forget new newLen d).writeList new (m.bytes old oldLen)

/-! ## Stream bits (20_memory.md R52, 40_bit_primitives.md R103) -/

/-- `sbit(U, p)` of R7: stream bit p of the buffer at `base`, the bit of weight `2^(7 - p mod 8)` of byte `p div 8`. -/
def sbit (m : Memory) (base p : Nat) : Bool := (m.read (base + p / 8)).getLsbD (7 - p % 8)

/-- The i-th stream bit of a field of width w: `f[w - 1 - i]`, the most significant first (R9). -/
def fieldBit (v : Word) (w i : Nat) : Bool := v.getLsbD (w - 1 - i)

/-- Buffer byte `j` after a field of width w written at cursor c: each of its stream bits `8j .. 8j + 7` is the field's
if the field covers it and is kept otherwise (R105, R58). -/
def spliceByte (old : Byte) (j c : Nat) (v : Word) (w : Nat) : Byte :=
  let bit (k : Nat) : Bool :=
    if c ≤ 8 * j + k ∧ 8 * j + k < c + w then fieldBit v w (8 * j + k - c) else old.getLsbD (7 - k)
  BitVec.ofBoolListBE [bit 0, bit 1, bit 2, bit 3, bit 4, bit 5, bit 6, bit 7]

/-- How many bytes a field of width w at cursor c touches (20_memory.md R56). -/
def touchedBytes (c w : Nat) : Nat := if w = 0 then 0 else (c % 8 + w - 1) / 8 + 1

/-- Splice `n` buffer bytes, from byte `j` up, each once, in ascending order (R58). -/
def Memory.spliceFrom (m : Memory) (base c : Nat) (v : Word) (w : Nat) : Nat → Nat → Memory
  | 0, _ => m
  | n + 1, j => (m.write (base + j) (spliceByte (m.read (base + j)) j c v w)).spliceFrom base c v w n (j + 1)

/-- The net effect of `write_field_raw` on `Mem` (R105): stream bits `c .. c + w - 1` hold the low w bits of v, most
significant first, and every other bit is unchanged. -/
def Memory.writeField (m : Memory) (base c : Nat) (v : Word) (w : Nat) : Memory :=
  m.spliceFrom base c v w (touchedBytes c w) (c / 8)

/-- `write_field_raw` as the source's byte algorithm (R106), with the shifts and masks of that rule; one turn per touched
byte. `fuel` bounds the turns; each consumes at least one bit of the field, so `w` turns are enough. The answer is `Mem`
and the cursor. The commands use R105 (`writeField`); that the two agree is a claim. -/
def packField : Nat → Memory → Nat → Nat → Word → Nat → Memory × Nat
  | 0, m, _, cur, _, _ => (m, cur)
  | fuel + 1, m, base, cur, v, w =>
    if w = 0 then (m, cur)
    else
      let a := base + cur / 8
      let o := cur % 8
      if o = 0 then
        if 8 ≤ w then
          packField fuel (m.write a (((v >>> (w - 8)) &&& 0xFF#64).setWidth 8)) base (cur + 8) v (w - 8)
        else
          let t := v.setWidth 8 &&& lowMask w
          (m.write a ((t <<< (8 - w)) ||| (m.read a &&& lowMask (8 - w))), cur + w)
      else
        let r := 8 - o
        if w ≤ r then
          let t := v.setWidth 8 &&& lowMask w
          let keep := 0xFF#8 - (lowMask w <<< (r - w))
          (m.write a ((m.read a &&& keep) ||| (t <<< (r - w))), cur + w)
        else
          let t := (v >>> (w - r)).setWidth 8 &&& lowMask r
          packField fuel (m.write a ((m.read a &&& (0xFF#8 - lowMask r)) ||| t)) base (cur + r) v (w - r)

/-- `acc <- (acc << 1) | sbit(c + i)` for the next `n` stream bits (R108). -/
def readBits (m : Memory) (base : Nat) : Nat → Nat → Word → Word
  | 0, _, acc => acc
  | n + 1, p, acc => readBits m base n (p + 1) ((acc <<< 1) ||| (BitVec.ofBool (sbit m base p)).setWidth 64)

/-! ## The micro-operations of the units -/

/-- The cursor's advance (R25). -/
def State.advanceW (s : State) (n : Nat) : State := { s with w := { s.w with cur := s.w.cur + BitVec.ofNat 64 n } }
def State.advanceR (s : State) (n : Nat) : State := { s with r := { s.r with cur := s.r.cur + BitVec.ofNat 64 n } }

/-- `write_bit_raw(b)` (R104). -/
def State.writeBitRaw (s : State) (b : Bool) : State :=
  let a := s.w.base.toNat + s.w.cur.toNat / 8
  let o := s.w.cur.toNat % 8
  let x := s.mem.read a
  { s with mem := s.mem.write a (if b then x ||| setMask o else x &&& clearMask o) }.advanceW 1

/-- `write_field_raw(v, w)` (R105). -/
def State.writeFieldRaw (s : State) (v : Word) (w : Nat) : State :=
  { s with mem := s.mem.writeField s.w.base.toNat s.w.cur.toNat v w }.advanceW w

/-- `read_bit_raw()` (R107): the bit read, and the state with the cursor advanced. -/
def State.readBitRaw (s : State) : Word × State :=
  let x := s.mem.read (s.r.base.toNat + s.r.cur.toNat / 8)
  (((x >>> (7 - s.r.cur.toNat % 8)) &&& 1#8).setWidth 64, s.advanceR 1)

/-- `read_field_raw(w)` (R108): the field read, and the state with the cursor advanced. -/
def State.readFieldRaw (s : State) (w : Nat) : Word × State :=
  (readBits s.mem s.r.base.toNat w s.r.cur.toNat 0, s.advanceR w)

/-! ## The response, and failing (60_exceptions.md R200, R204, R209) -/

/-- Append a response. -/
def State.answer (s : State) (status : Status) (result : Word) : State :=
  { s with responses := s.responses ++ [⟨status, result⟩] }

/-- `respond(v)` (R7): STATUS = OK. -/
def State.respond (s : State) (result : Word) : Outcome := .next (s.answer .ok result)

/-- `fail S` (R7, R204), the core's whole exception mechanism: STATUS = S, RESULT = 0 and no change to any state. There is
no saved state, no handler and no return (R209, R211). -/
def State.fail (s : State) (status : Status) : Outcome := .next (s.answer status 0)

/-- What a packet that decodes to no command is answered (R88). -/
def State.answerReserved (s : State) : Outcome := s.fail .illegalCommand

/-! ## The entry checks, in the order of R201 -/

/-- Steps 1 to 3 of R201: the packet alone decides. -/
def State.requireLegal (s : State) (legal : Bool) (k : Outcome) : Outcome := if legal then k else s.fail .illegalCommand

/-- Step 4 of R201, R202: a command that needs its unit bound (`want` true) or unbound (`want` false). -/
def State.requireBound (s : State) (bound want : Bool) (k : Outcome) : Outcome :=
  if bound = want then k else s.fail .badBindState

/-- Step 5 of R201, R207. -/
def State.requireRegion (s : State) (base nbytes : Word) (k : Outcome) : Outcome :=
  if regionOk s.params base nbytes then k else s.fail .badRegion

/-! ## The capacity check and growth -/

/-- `Fits(U, n)` (R109), in unbounded integers. -/
abbrev fits (cur cap : Word) (n : Nat) : Prop := cur.toNat + n ≤ cap.toNat

/-- Does `[base, base + len)` lie in the address space (R31)? -/
abbrev State.inSpace (s : State) (base len : Nat) : Prop := base + len ≤ 2 ^ s.params.aw

/-- "while `cursor + bits_needed > capacity`" double the byte length (R112). Sixty-four doublings cover every need of a buffer
of at least one byte; a buffer of none (no state that meets R24) never covers it (log 14). -/
def doubleUntil : Nat → Nat → Nat → Nat
  | 0, len, _ => len
  | fuel + 1, len, need => if need ≤ 8 * len then len else doubleUntil fuel (2 * len) need

/-- The byte length after growth (R112 step 2). -/
def grownLength (len need : Nat) : Nat := doubleUntil 64 len need

/-- The allocator's draw of a base for `len` bytes (R112 step 4, R182): any address with
`HEAP_BASE <= nb` and `nb + len <= HEAP_BASE + HEAP_BYTES` (log 9). -/
def placeInHeap (p : Params) (len d : Nat) : Nat := p.heapBase + Config.freeOffset d % (p.heapBytes - len + 1)

/-- What a capacity check finds: go on from a state, a status to fail with, or a fault. -/
inductive Checked
  | ready (s : State)
  | short (status : Status)
  | broken (fault : Fault)
  deriving DecidableEq, Repr

/-- Steps 4 to 6 of R112 for a drawn base. -/
def State.growTo (s : State) (newBase newLen : Nat) : State :=
  { s with
    mem := s.mem.relocate s.w.base.toNat (s.w.cap.toNat / 8) newBase newLen s.draws
    w := { s.w with base := BitVec.ofNat 64 newBase, cap := bitCapacity newLen }
    draws := s.draws + 1 }

/-- `Grow(n)` (R112). The fault stands for a copy outside the address space, which no state that meets R24 makes (log 10). -/
def State.grow (s : State) (n : Nat) : Checked :=
  let need := s.w.cur.toNat + n
  if need ≤ s.w.cap.toNat then .ready s
  else
    let old := s.w.cap.toNat / 8
    let new := grownLength old need
    if s.params.heapBytes < new ∨ 8 * new < need then .short .growthExhausted
    else if s.inSpace s.w.base.toNat old ∧ s.inSpace s.params.heapBase s.params.heapBytes then
      .ready (s.growTo (placeInHeap s.params new s.draws) new)
    else .broken .noSuchAddress

/-- May a unit touch the `n` bits from its cursor on: does the last byte exist (R31, R56)? -/
abbrev State.mayTouch (s : State) (base cur : Word) (n : Nat) : Prop :=
  s.inSpace base.toNat ((cur.toNat + n + 7) / 8)

/-- Let a checked access through if its bytes exist (log 10). -/
def State.guardAccess (s : State) (base cur : Word) (n : Nat) : Checked :=
  if s.mayTouch base cur n then .ready s else .broken .noSuchAddress

/-- `ensure_or_fail(n)` of 41_write_unit.md, the one check of a write command (R113): R110 on a Fixed sink, R111 on a
Growable one. -/
def State.ensureOrFail (s : State) (n : Nat) : Checked :=
  match s.w.variant with
  | .fixed => if fits s.w.cur s.w.cap n then s.guardAccess s.w.base s.w.cur n else .short .insufficientSpace
  | .growable =>
    match s.grow n with
    | .ready g => g.guardAccess g.w.base g.w.cur n
    | .short status => .short status
    | .broken fault => .broken fault

/-- `check_or_fail(n)` of 42_read_unit.md, the one check of a read command. -/
def State.checkOrFail (s : State) (n : Nat) : Checked :=
  if fits s.r.cur s.r.cap n then s.guardAccess s.r.base s.r.cur n else .short .insufficientData

/-- End a command by its capacity check: fail from the state before it, or go on from the state it made ready. -/
def State.settle (s : State) (c : Checked) (k : State → Outcome) : Outcome :=
  match c with
  | .ready t => k t
  | .short status => s.fail status
  | .broken fault => .fault fault

/-! ## Binding and unbinding (43_binding.md) -/

/-- An unspecified one-bit field as a variant or an ownership (R22: two values each). -/
def Variant.ofBool (b : Bool) : Variant := if b then .growable else .fixed
def Ownership.ofBool (b : Bool) : Ownership := if b then .owned else .borrowed

/-- An unspecified base: AW bits wide (R22). -/
def freeBase (p : Params) (d : Nat) (slot : Slot) : Word := BitVec.ofNat 64 ((Config.freeWord d slot).toNat % 2 ^ p.aw)

/-- An unspecified capacity: a multiple of 8 (R22). -/
def freeCap (d : Nat) (slot : Slot) : Word := BitVec.ofNat 64 (8 * ((Config.freeWord d slot).toNat / 8))

/-- An unbound Write Unit: the other fields are unspecified (R35, R183, R230). -/
def unboundW (p : Params) (d : Nat) : WriteUnit :=
  { bound := false
    variant := Variant.ofBool (Config.freeBool d .wVariant)
    own := Ownership.ofBool (Config.freeBool d .wOwn)
    token := Config.freeWord d .wToken
    base := freeBase p d .wBase
    cap := freeCap d .wCap
    cur := Config.freeWord d .wCur }

/-- An unbound Read Unit: the other fields are unspecified (R35, R230). -/
def unboundR (p : Params) (d : Nat) : ReadUnit :=
  { bound := false
    own := Ownership.ofBool (Config.freeBool d .rOwn)
    token := Config.freeWord d .rToken
    base := freeBase p d .rBase
    cap := freeCap d .rCap
    cur := Config.freeWord d .rCur }

/-- Bind the Write Unit to a host buffer (R180, R181): a Fixed sink at cursor 0. -/
def State.bindW (s : State) (own : Ownership) (token base nbytes : Word) : State :=
  { s with
    w := { bound := true, variant := .fixed, own := own, token := token, base := base,
           cap := bitCapacity nbytes.toNat, cur := 0 } }

/-- Bind the Read Unit to a host buffer (R184, R185), at cursor 0. -/
def State.bindR (s : State) (own : Ownership) (token base nbytes : Word) : State :=
  { s with
    r := { bound := true, own := own, token := token, base := base, cap := bitCapacity nbytes.toNat, cur := 0 } }

/-- Count a draw. -/
def State.drawn (s : State) : State := { s with draws := s.draws + 1 }

/-- Self-allocate (R182) at a drawn base. -/
def State.allocAt (s : State) (newBase : Nat) : State :=
  { s with
    mem := s.mem.forget newBase s.params.initBytes s.draws
    w := { bound := true, variant := .growable, own := .owned, token := Config.freeWord s.draws .wToken,
           base := BitVec.ofNat 64 newBase, cap := bitCapacity s.params.initBytes, cur := 0 } }.drawn

/-- The release event (R187). -/
def State.release (s : State) (token base cap : Word) : State :=
  { s with relLog := s.relLog ++ [⟨token, base, cap.toNat / 8⟩] }

/-- What W.UNBIND does with the buffer (R183): a release event for a Fixed Owned one, unspecified bytes for a Growable
one, nothing for a Fixed Borrowed one. -/
def State.disposeW (s : State) : State :=
  match s.w.variant with
  | .fixed =>
    match s.w.own with
    | .owned => s.release s.w.token s.w.base s.w.cap
    | .borrowed => s
  | .growable => { s with mem := s.mem.forget s.w.base.toNat (s.w.cap.toNat / 8) s.draws }

/-- What R.UNBIND does with the buffer (R186). -/
def State.disposeR (s : State) : State :=
  match s.r.own with
  | .owned => s.release s.r.token s.r.base s.r.cap
  | .borrowed => s

def State.unbindW (s : State) : State := { s.disposeW with w := unboundW s.params s.draws }.drawn
def State.unbindR (s : State) : State := { s.disposeR with r := unboundR s.params s.draws }.drawn

/-! ## What the host does (00_scope.md R11, 70_reset_and_hazards.md R230, R241, R246) -/

/-- Is an address in the heap region? -/
abbrev inHeap (p : Params) (a : Nat) : Prop := p.heapBase ≤ a ∧ a < p.heapBase + p.heapBytes

/-- The host writes a byte of `Mem` between commands (R63 (c)); not at an address that does not exist (R31), and not in
the heap region (R241, U5: refuse). -/
def State.hostWrite (s : State) (a : Nat) (v : Byte) : Outcome :=
  if 2 ^ s.params.aw ≤ a then .fault .noSuchAddress
  else if inHeap s.params a then .refused .hostWroteHeap
  else .next { s with mem := s.mem.write a v }

/-- The reset input (R230, R231): both units unbound, their other fields unspecified; `Mem` and `RelLog` unchanged; no
release event and no response. -/
def State.hostReset (s : State) : State :=
  { s with w := unboundW s.params s.draws, r := unboundR s.params s.draws }.drawn

end Sys2Proof.Machine
end

