-- ==== Sys2Proof/Machine/Binding.lean ====
section
/-! DEFINITION. Construction and destruction: the bind, allocate and unbind commands (43_binding.md). -/

namespace Sys2Proof.Machine

/-- W.BORROW (R180). The token becomes unspecified. -/
def execWBorrow (base nbytes : Word) (s : State) : Outcome :=
  s.requireBound s.w.bound false <|
    s.requireRegion base nbytes ((s.bindW .borrowed (Config.freeWord s.draws .wToken) base nbytes).drawn.respond 0)

/-- W.OWN (R181). -/
def execWOwn (base nbytes token : Word) (s : State) : Outcome :=
  s.requireBound s.w.bound false <|
    s.requireRegion base nbytes ((s.bindW .owned token base nbytes).respond 0)

/-- W.ALLOC (R182). It cannot fail for want of memory (R5: INIT_BYTES <= HEAP_BYTES). -/
def execWAlloc (s : State) : Outcome :=
  s.requireBound s.w.bound false ((s.allocAt (placeInHeap s.params s.params.initBytes s.draws)).respond 0)

/-- W.UNBIND (R183). -/
def execWUnbind (s : State) : Outcome := s.requireBound s.w.bound true (s.unbindW.respond 0)

/-- R.BORROW (R184). The token becomes unspecified. -/
def execRBorrow (base nbytes : Word) (s : State) : Outcome :=
  s.requireBound s.r.bound false <|
    s.requireRegion base nbytes ((s.bindR .borrowed (Config.freeWord s.draws .rToken) base nbytes).drawn.respond 0)

/-- R.OWN (R185). -/
def execROwn (base nbytes token : Word) (s : State) : Outcome :=
  s.requireBound s.r.bound false <|
    s.requireRegion base nbytes ((s.bindR .owned token base nbytes).respond 0)

/-- R.UNBIND (R186). -/
def execRUnbind (s : State) : Outcome := s.requireBound s.r.bound true (s.unbindR.respond 0)

end Sys2Proof.Machine
end

