-- ==== Sys2Proof/Machine/ReadUnit.lean ====
section
/-! DEFINITION. The Read Unit commands that are not construction or destruction (42_read_unit.md). -/

namespace Sys2Proof.Machine

/-- The entry checks of R166: the packet, then the bind state. -/
def State.enterR (s : State) (legal : Bool) (k : Outcome) : Outcome :=
  s.requireLegal legal (s.requireBound s.r.bound true k)

/-- R.SEEK (R160). -/
def execRSeek (origin : Origin) (offset : Word) (s : State) : Outcome :=
  s.enterR (originLegal origin)
    (({ s with r := { s.r with cur := seekTarget origin offset s.r.cur s.r.cap } } : State).respond 0)

/-- R.TELL (R161). -/
def execRTell (s : State) : Outcome := s.enterR true (s.respond s.r.cur)

/-- R.BIT (R162). -/
def execRBit (s : State) : Outcome :=
  s.enterR true (s.settle (s.checkOrFail 1) (fun t => t.readBitRaw.2.respond t.readBitRaw.1))

/-- R.UINT (R163): zero-extended. -/
def execRUint (width : Nat) (s : State) : Outcome :=
  s.enterR (widthLegal width)
    (s.settle (s.checkOrFail width) (fun t => (t.readFieldRaw width).2.respond (t.readFieldRaw width).1))

/-- The result of R.INT from the sign bit and the rest of the field (R164): "all-ones shifted left by `width - 1`
(sign-extension pattern), then bitwise-ORs in `read_uint(width - 1)`". -/
def twosComplementResult (sign rest : Word) (width : Nat) : Word :=
  if sign = 1 then (BitVec.allOnes 64 <<< (width - 1)) ||| rest else rest

/-- The result of R.INTS (R165): `word(-m)` if the sign bit is set, else m. -/
def signMagnitudeResult (sign mag : Word) : Word := if sign = 1 then -mag else mag

/-- R.INT (R164): one check for the whole field, then the sign bit, then the rest. -/
def execRInt (width : Nat) (s : State) : Outcome :=
  s.enterR (widthLegal width) <|
    s.settle (s.checkOrFail width) fun t =>
      let sign := t.readBitRaw
      let rest := sign.2.readFieldRaw (width - 1)
      rest.2.respond (twosComplementResult sign.1 rest.1 width)

/-- R.INTS (R165). -/
def execRInts (width : Nat) (s : State) : Outcome :=
  s.enterR (widthLegal width) <|
    s.settle (s.checkOrFail width) fun t =>
      let sign := t.readBitRaw
      let mag := sign.2.readFieldRaw (width - 1)
      mag.2.respond (signMagnitudeResult sign.1 mag.1)

end Sys2Proof.Machine
end

