-- ==== Sys2Proof/Machine/WriteUnit.lean ====
section
/-! DEFINITION. The Write Unit commands that are not construction or destruction (41_write_unit.md). -/

namespace Sys2Proof.Machine

/-- The entry checks of R139: the packet, then the bind state. -/
def State.enterW (s : State) (legal : Bool) (k : Outcome) : Outcome :=
  s.requireLegal legal (s.requireBound s.w.bound true k)

/-- W.SEEK (R130): reposition the cursor, with no range validation. -/
def execWSeek (origin : Origin) (offset : Word) (s : State) : Outcome :=
  s.enterW (originLegal origin)
    (({ s with w := { s.w with cur := seekTarget origin offset s.w.cur s.w.cap } } : State).respond 0)

/-- W.TELL (R131). -/
def execWTell (s : State) : Outcome := s.enterW true (s.respond s.w.cur)

/-- W.ENSURE (R132): on a Fixed sink the answer of `Fits`, on a Growable one growth and the answer 1. -/
def execWEnsure (bits : Word) (s : State) : Outcome :=
  s.enterW true <|
    match s.w.variant with
    | .fixed => s.respond (if fits s.w.cur s.w.cap bits.toNat then 1 else 0)
    | .growable => s.settle (s.grow bits.toNat) (fun g => g.respond 1)

/-- W.BIT (R133). -/
def execWBit (bit : Word) (s : State) : Outcome :=
  s.enterW (bitLegal bit) (s.settle (s.ensureOrFail 1) (fun t => (t.writeBitRaw (bit.getLsbD 0)).respond 0))

/-- W.UINT (R134). -/
def execWUint (width : Nat) (value : Word) (s : State) : Outcome :=
  s.enterW (widthLegal width) (s.settle (s.ensureOrFail width) (fun t => (t.writeFieldRaw value width).respond 0))

/-- W.INT (R135): the raw two's-complement pattern, with no conversion. -/
def execWInt (width : Nat) (value : Word) (s : State) : Outcome :=
  s.enterW (widthLegal width) (s.settle (s.ensureOrFail width) (fun t => (t.writeFieldRaw value width).respond 0))

/-- W.INTS (R136): one check for the whole field, then the sign bit, then the magnitude. -/
def execWInts (width : Nat) (value : Word) (s : State) : Outcome :=
  s.enterW (widthLegal width) <|
    s.settle (s.ensureOrFail width) fun t =>
      ((t.writeBitRaw (signBit value)).writeFieldRaw (magnitude value) (width - 1)).respond 0

/-- W.DATA (R137): the address of byte 0 of the buffer. -/
def execWData (s : State) : Outcome := s.enterW true (s.respond s.w.base)

/-- W.SIZE (R138): the byte length of the whole buffer. -/
def execWSize (s : State) : Outcome := s.enterW true (s.respond (BitVec.ofNat 64 (s.w.cap.toNat / 8)))

end Sys2Proof.Machine
end

