-- ==== Sys2Proof/Machine/Dispatch.lean ====
section
/-! DEFINITION. One arm per command of 30_encoding.md R84. -/

namespace Sys2Proof.Machine

def exec (i : Instr) (s : State) : Host.Outcome State Fault Refusal :=
  match i with
  | .wBorrow base nbytes => Sys2Proof.Machine.execWBorrow base nbytes s
  | .wOwn base nbytes token => Sys2Proof.Machine.execWOwn base nbytes token s
  | .wAlloc => Sys2Proof.Machine.execWAlloc s
  | .wUnbind => Sys2Proof.Machine.execWUnbind s
  | .wSeek origin offset => Sys2Proof.Machine.execWSeek origin offset s
  | .wTell => Sys2Proof.Machine.execWTell s
  | .wEnsure bits => Sys2Proof.Machine.execWEnsure bits s
  | .wBit bit => Sys2Proof.Machine.execWBit bit s
  | .wUint width value => Sys2Proof.Machine.execWUint width value s
  | .wInt width value => Sys2Proof.Machine.execWInt width value s
  | .wInts width value => Sys2Proof.Machine.execWInts width value s
  | .wData => Sys2Proof.Machine.execWData s
  | .wSize => Sys2Proof.Machine.execWSize s
  | .rBorrow base nbytes => Sys2Proof.Machine.execRBorrow base nbytes s
  | .rOwn base nbytes token => Sys2Proof.Machine.execROwn base nbytes token s
  | .rUnbind => Sys2Proof.Machine.execRUnbind s
  | .rSeek origin offset => Sys2Proof.Machine.execRSeek origin offset s
  | .rTell => Sys2Proof.Machine.execRTell s
  | .rBit => Sys2Proof.Machine.execRBit s
  | .rUint width => Sys2Proof.Machine.execRUint width s
  | .rInt width => Sys2Proof.Machine.execRInt width s
  | .rInts width => Sys2Proof.Machine.execRInts width s

end Sys2Proof.Machine
end

