-- ==== Sys2Proof/Machine/Step.lean ====
section
/-! DEFINITION. One step: the core answers the host's next action (00_scope.md R11; log 2). -/

namespace Sys2Proof.Machine

/-- Answer one packet (R10, R85): run the command it decodes to, or answer that it is reserved. -/
def runPacket (p : Packet) (s : State) : Outcome :=
  match decode p with
  | .ok i => exec i s
  | .error _ => s.answerReserved

/-- One step. With no action pending the core is idle and holds its state (R210, R213; log 13). -/
def step (s : State) : Host.Outcome State Fault Refusal :=
  match s.pending with
  | [] => .next s
  | .command p :: rest => runPacket p { s with pending := rest }
  | .write a v :: rest => ({ s with pending := rest } : State).hostWrite a v
  | .reset :: rest => .next ({ s with pending := rest } : State).hostReset

/-- The state in which the host presents that packet next. -/
def State.withFetchWord (s : State) (nbits w : Nat) : State :=
  { s with pending := .command (Packet.ofTable nbits w) :: s.pending }

end Sys2Proof.Machine
end

