-- ==== Sys2Proof/Machine/Flags.lean ====
section
/-! DEFINITION. The status codes. The core has no flags, condition codes or predicate registers; the only status is the
4-bit STATUS of each response, which no later command reads (10_state.md R33). -/

namespace Sys2Proof.Machine

/-- The status codes of 60_exceptions.md R200. -/
def Status.code : Status → BitVec 4
  | .ok => 0
  | .insufficientSpace => 1
  | .insufficientData => 2
  | .illegalCommand => 3
  | .badBindState => 4
  | .badRegion => 5
  | .growthExhausted => 6

/-- The status of a code; codes 7 to 15 are reserved and never produced (R200). -/
def Status.ofCode (c : BitVec 4) : Option Status :=
  match c.toNat with
  | 0 => some .ok
  | 1 => some .insufficientSpace
  | 2 => some .insufficientData
  | 3 => some .illegalCommand
  | 4 => some .badBindState
  | 5 => some .badRegion
  | 6 => some .growthExhausted
  | _ => none

end Sys2Proof.Machine
end

