-- ==== Sys2Proof/Safety.lean ====
section
/-! DEFINITION. The terms claims are stated in: the invariant of 10_state.md R24, what the spec calls a reserved or illegal
packet, the status it prescribes, and the net effects of growth, of a field write and of a field read, each written from
the rule itself and not from the model's operations. -/

namespace Sys2Proof.Machine

/-! ## The invariant -/

/-- R24, with the widths of R22 and R23 (the base is AW bits wide, the capacity a multiple of 8, in every state), the
constraints of R5, and the canonical form of `Mem` with every listed byte at an address that exists (R31). -/
structure State.Inv (s : State) : Prop where
  params : s.params.ok
  memory : s.mem.wf
  listed : ∀ c ∈ s.mem.cells, c.1 < 2 ^ s.params.aw
  wBase : s.w.base.toNat < 2 ^ s.params.aw
  rBase : s.r.base.toNat < 2 ^ s.params.aw
  /-- R24 (a) and, with the 64-bit width, (b) -/
  wCap : s.w.cap.toNat % 8 = 0
  rCap : s.r.cap.toNat % 8 = 0
  /-- R24 (c) -/
  wRegion : s.w.bound = true → s.w.base.toNat + s.w.cap.toNat / 8 ≤ 2 ^ s.params.aw
  rRegion : s.r.bound = true → s.r.base.toNat + s.r.cap.toNat / 8 ≤ 2 ^ s.params.aw
  /-- R24 (d) -/
  growable : s.w.bound = true → s.w.variant = .growable →
    s.w.own = .owned ∧ (∃ k, s.w.cap.toNat / 8 = s.params.initBytes * 2 ^ k) ∧
      s.params.heapBase ≤ s.w.base.toNat ∧
      s.w.base.toNat + s.w.cap.toNat / 8 ≤ s.params.heapBase + s.params.heapBytes

/-- Is an address in the region of a unit with this base and capacity (R51)? -/
abbrev inRegion (base cap : Word) (a : Nat) : Prop := base.toNat ≤ a ∧ a < base.toNat + cap.toNat / 8

/-! ## Reserved words and illegal packets, on the number the command word is -/

/-- The fields of R81 by their weights. -/
abbrev zOf (c : BitVec 16) : Nat := c.toNat / 4096 % 8
abbrev unitOf (c : BitVec 16) : Nat := c.toNat / 32768
abbrev opOf (c : BitVec 16) : Nat := c.toNat / 256 % 16
abbrev argOf (c : BitVec 16) : Nat := c.toNat % 256

/-- A must-be-zero bit of ARG is set (R82): ARG[7] in format F (operations 9, A, B), ARG[7:2] in format S (operation 5), all
of ARG in format N. -/
abbrev argReserved (c : BitVec 16) : Prop :=
  if opOf c = 9 ∨ opOf c = 10 ∨ opOf c = 11 then 128 ≤ argOf c
  else if opOf c = 5 then 4 ≤ argOf c
  else argOf c ≠ 0

/-- The reserved words as R88 lists them. -/
abbrev reservedWord (c : BitVec 16) : Prop :=
  zOf c ≠ 0 ∨ opOf c = 0 ∨ opOf c = 14 ∨ opOf c = 15 ∨
    (unitOf c = 1 ∧ (opOf c = 3 ∨ opOf c = 7 ∨ opOf c = 12 ∨ opOf c = 13)) ∨ argReserved c

/-- A format-F word with width 0 or 65 .. 127 (R86). -/
abbrev widthIllegal (c : BitVec 16) : Prop :=
  (opOf c = 9 ∨ opOf c = 10 ∨ opOf c = 11) ∧ (argOf c = 0 ∨ 65 ≤ argOf c)

/-- A format-S word with origin 3 (R87). -/
abbrev originIllegal (c : BitVec 16) : Prop := opOf c = 5 ∧ argOf c = 3

/-- What R203 raises IllegalCommand for. -/
abbrev illegalPacket (p : Packet) : Prop :=
  reservedWord p.cmd ∨ widthIllegal p.cmd ∨ originIllegal p.cmd ∨ (p.cmd = 0x0800#16 ∧ 1 < p.a0.toNat)

/-! ## The units and kinds of the commands -/

/-- The Write Unit's commands (R84, U = 0). -/
def isWriteCommand : Instr → Bool
  | .wBorrow _ _ | .wOwn _ _ _ | .wAlloc | .wUnbind | .wSeek _ _ | .wTell | .wEnsure _ | .wBit _ | .wUint _ _
  | .wInt _ _ | .wInts _ _ | .wData | .wSize => true
  | .rBorrow _ _ | .rOwn _ _ _ | .rUnbind | .rSeek _ _ | .rTell | .rBit | .rUint _ | .rInt _ | .rInts _ => false

/-- The bind commands (R233). -/
def isBindCommand : Instr → Bool
  | .wBorrow _ _ | .wOwn _ _ _ | .wAlloc | .rBorrow _ _ | .rOwn _ _ _ => true
  | .wUnbind | .wSeek _ _ | .wTell | .wEnsure _ | .wBit _ | .wUint _ _ | .wInt _ _ | .wInts _ _ | .wData | .wSize
  | .rUnbind | .rSeek _ _ | .rTell | .rBit | .rUint _ | .rInt _ | .rInts _ => false

/-- The commands that can change `Mem` (20_memory.md R50): the four write commands, W.ENSURE by growth, and W.ALLOC and
W.UNBIND by making a Growable buffer's bytes unspecified. -/
def mayChangeMem : Instr → Bool
  | .wAlloc | .wUnbind | .wEnsure _ | .wBit _ | .wUint _ _ | .wInt _ _ | .wInts _ _ => true
  | .wBorrow _ _ | .wOwn _ _ _ | .wSeek _ _ | .wTell | .wData | .wSize
  | .rBorrow _ _ | .rOwn _ _ _ | .rUnbind | .rSeek _ _ | .rTell | .rBit | .rUint _ | .rInt _ | .rInts _ => false

/-- `RegionOK` of R188 on the operands' numbers. -/
abbrev regionFits (s : State) (base nbytes : Word) : Prop :=
  nbytes.toNat ≤ 2 ^ 61 - 1 ∧ base.toNat < 2 ^ s.params.aw ∧ base.toNat + nbytes.toNat ≤ 2 ^ s.params.aw

/-! ## The status a packet is answered with (60_exceptions.md R201) -/

/-- Does some number of doublings of the buffer cover the cursor and `n` more bits within HEAP_BYTES (R112 steps 1 to 3)? -/
def heapCovers (s : State) (n : Nat) : Bool :=
  (List.range 64).any fun k =>
    decide (s.w.cur.toNat + n ≤ 8 * (s.w.cap.toNat / 8 * 2 ^ k) ∧ s.w.cap.toNat / 8 * 2 ^ k ≤ s.params.heapBytes)

/-- Step 6 of R201 for a write command of `n` bits (R205, R208). -/
def writeStatus (s : State) (n : Nat) : Status :=
  match s.w.variant with
  | .fixed => if s.w.cur.toNat + n ≤ s.w.cap.toNat then .ok else .insufficientSpace
  | .growable => if heapCovers s n then .ok else .growthExhausted

/-- Step 6 of R201 for a read command of `n` bits (R206). -/
def readStatus (s : State) (n : Nat) : Status :=
  if s.r.cur.toNat + n ≤ s.r.cap.toNat then .ok else .insufficientData

/-- W.ENSURE fails on a Growable sink only (R132, R208). -/
def ensureStatus (s : State) (n : Nat) : Status :=
  match s.w.variant with
  | .fixed => .ok
  | .growable => if heapCovers s n then .ok else .growthExhausted

/-- Steps 4 to 6 of R201 for a command that passed steps 1 to 3. -/
def stateStatus (s : State) (i : Instr) : Status :=
  let bound := if isWriteCommand i then s.w.bound else s.r.bound
  if bound = isBindCommand i then .badBindState
  else
    match i with
    | .wBorrow base nbytes | .wOwn base nbytes _ | .rBorrow base nbytes | .rOwn base nbytes _ =>
      if regionFits s base nbytes then .ok else .badRegion
    | .wEnsure bits => ensureStatus s bits.toNat
    | .wBit _ => writeStatus s 1
    | .wUint width _ | .wInt width _ | .wInts width _ => writeStatus s width
    | .rBit => readStatus s 1
    | .rUint width | .rInt width | .rInts width => readStatus s width
    | .wAlloc | .wUnbind | .wSeek _ _ | .wTell | .wData | .wSize | .rUnbind | .rSeek _ _ | .rTell => .ok

/-- The status R201 prescribes for a packet. -/
def prescribedStatus (s : State) (p : Packet) : Status :=
  if illegalPacket p then .illegalCommand
  else
    match decode p with
    | .ok i => stateStatus s i
    | .error _ => .illegalCommand

/-! ## Net effects -/

/-- The net effect of a field write on `Mem` (R105, R58): stream bit `c + i` holds the field's i-th bit, every other bit of
`Mem` is unchanged, and so is every byte outside the footprint of R56. -/
structure FieldStored (before after : Memory) (base c w : Nat) (bit : Nat → Bool) : Prop where
  inside : ∀ i < w, sbit after base (c + i) = bit i
  outside : ∀ a k, k < 8 → (∀ i < w, ¬(a = base + (c + i) / 8 ∧ k = (c + i) % 8)) →
    (after.read a).getLsbD (7 - k) = (before.read a).getLsbD (7 - k)
  bytes : ∀ a, a < base + c / 8 ∨ base + (c + w - 1) / 8 < a → after.read a = before.read a

/-- What a successful write command of `w` bits does (41_write_unit.md): the field in `Mem`, the cursor's advance, the
response, and nothing else. -/
def FieldPut (s t : State) (w : Nat) (bit : Nat → Bool) : Prop :=
  t = { s with mem := t.mem, w := { s.w with cur := t.w.cur }, responses := s.responses ++ [⟨.ok, 0⟩] } ∧
    t.w.cur.toNat = s.w.cur.toNat + w ∧ FieldStored s.mem t.mem s.w.base.toNat s.w.cur.toNat w bit

/-- The net effect of a growth event that multiplies the byte length by `2^k` (R112 steps 2 to 6): the new buffer in the heap
region, the old bytes kept in order, every byte outside the two regions unchanged, and nothing else but the base, the
capacity and the draw counter changed. -/
structure GrownBy (s g : State) (k : Nat) : Prop where
  rest : g = { s with mem := g.mem, w := { s.w with base := g.w.base, cap := g.w.cap }, draws := g.draws }
  length : g.w.cap.toNat = 8 * (s.w.cap.toNat / 8 * 2 ^ k)
  above : s.params.heapBase ≤ g.w.base.toNat
  below : g.w.base.toNat + g.w.cap.toNat / 8 ≤ s.params.heapBase + s.params.heapBytes
  kept : ∀ j < s.w.cap.toNat / 8, g.mem.read (g.w.base.toNat + j) = s.mem.read (s.w.base.toNat + j)
  others : ∀ a, ¬inRegion s.w.base s.w.cap a → ¬inRegion g.w.base g.w.cap a → g.mem.read a = s.mem.read a

/-- `Grow(n)` when it does not fail (R112): nothing if the capacity covers the need, else one growth event by the least
number of doublings, at least one, that covers it. -/
def Grown (s g : State) (n : Nat) : Prop :=
  (s.w.cur.toNat + n ≤ s.w.cap.toNat ∧ g = s) ∨
    (s.w.cap.toNat < s.w.cur.toNat + n ∧
      ∃ k, 1 ≤ k ∧ s.w.cur.toNat + n ≤ g.w.cap.toNat ∧
        (∀ j, 1 ≤ j → s.w.cur.toNat + n ≤ 8 * (s.w.cap.toNat / 8 * 2 ^ j) → k ≤ j) ∧ GrownBy s g k)

/-- A write command of `w` bits whose field is `bit`, after its packet checks: each outcome of R202, R205, R208 and the
successful write, on a Fixed and on a Growable sink. -/
def WritesField (i : Instr) (w : Nat) (bit : Nat → Bool) : Prop :=
  ∀ s : State, s.Inv →
    (s.w.bound = false → exec i s = .next (s.answer .badBindState 0)) ∧
    (s.w.bound = true → s.w.variant = .fixed → s.w.cap.toNat < s.w.cur.toNat + w →
      exec i s = .next (s.answer .insufficientSpace 0)) ∧
    (s.w.bound = true → s.w.variant = .fixed → s.w.cur.toNat + w ≤ s.w.cap.toNat →
      ∃ t, exec i s = .next t ∧ FieldPut s t w bit) ∧
    (s.w.bound = true → s.w.variant = .growable → heapCovers s w = false →
      exec i s = .next (s.answer .growthExhausted 0)) ∧
    (s.w.bound = true → s.w.variant = .growable → heapCovers s w = true →
      ∃ g t, exec i s = .next t ∧ Grown s g w ∧ FieldPut g t w bit)

/-- A read command of `w` bits, after its packet checks: each outcome of R202, R206 and the successful read, whose result
`result` describes from the field's stream bits; the cursor advances and nothing else changes. -/
def ReadsField (i : Instr) (w : Nat) (result : (Nat → Bool) → Word → Prop) : Prop :=
  ∀ s : State, s.Inv →
    (s.r.bound = false → exec i s = .next (s.answer .badBindState 0)) ∧
    (s.r.bound = true → s.r.cap.toNat < s.r.cur.toNat + w → exec i s = .next (s.answer .insufficientData 0)) ∧
    (s.r.bound = true → s.r.cur.toNat + w ≤ s.r.cap.toNat →
      ∃ v c, exec i s = .next (({ s with r := { s.r with cur := c } } : State).answer .ok v) ∧
        c.toNat = s.r.cur.toNat + w ∧ result (fun k => sbit s.mem s.r.base.toNat (s.r.cur.toNat + k)) v)

/-- Both units are bound to one region at one cursor, and `w` bits fit (40_bit_primitives.md R121). -/
structure ReadsWhatIsWritten (s : State) (w : Nat) : Prop where
  inv : s.Inv
  wBound : s.w.bound = true
  rBound : s.r.bound = true
  base : s.r.base = s.w.base
  cap : s.r.cap = s.w.cap
  cur : s.r.cur = s.w.cur
  room : s.w.cur.toNat + w ≤ s.w.cap.toNat

end Sys2Proof.Machine
end

