-- ==== Sys2Proof/Certificates/Slice0/Obligations.lean ====
section
/-! DEFINITION. The statements for the provers. Each docstring names the rule it formalises. -/

open Sys2Proof Sys2Proof.Machine

/-! ## Encoding -/

/-- R84, R91: words of each family written out bit by bit (unit, Z, OP, ARG) and the commands they are. -/
def Obligations.SampleWordsDecode : Prop :=
  decode ⟨0b0000100100000101#16, 0x1D, 7, 7⟩ = .ok (.wUint 5 0x1D) ∧
  decode ⟨0b1000010100000001#16, 0xFFFFFFFFFFFFFFF8, 0, 0⟩ = .ok (.rSeek .current 0xFFFFFFFFFFFFFFF8) ∧
  decode ⟨0b0000001000000000#16, 0x2000, 4, 0xCAFE⟩ = .ok (.wOwn 0x2000 4 0xCAFE) ∧
  decode ⟨0b1000101100000101#16, 9, 9, 9⟩ = .ok (.rInts 5) ∧
  decode ⟨0b1000001100000000#16, 0, 0, 0⟩ = .error .noSuchOperation

/-- R85, R91: a well-formed command, with every operand at every value its field admits, decodes back from its packet. -/
def Obligations.DecodeOfEncode : Prop :=
  ∀ i : Instr, i.wellFormed = true → decode (encode i) = .ok i

/-- R83, R85, R91: what decodes is well formed, has its own command word, and does not depend on the operands it does
not use. -/
def Obligations.DecodedCommandOwnsItsWord : Prop :=
  ∀ (p : Packet) (i : Instr), decode p = .ok i →
    i.wellFormed = true ∧ (encode i).cmd = p.cmd ∧
    ∀ q : Packet, q.cmd = p.cmd → (1 ≤ i.operandCount → q.a0 = p.a0) → (2 ≤ i.operandCount → q.a1 = p.a1) →
      (3 ≤ i.operandCount → q.a2 = p.a2) → decode q = .ok i

/-- R84, R85: a packet decodes to a command exactly when a row of the opcode map selects its word, the row is that
command's, and no two rows select one word. -/
def Obligations.DecodeFollowsTheOpcodeMap : Prop :=
  ∀ p : Packet,
    (∀ i, decode p = .ok i → ∃ row ∈ opcodeRows, row.selects p.cmd = true ∧ row.mnemonic = i.mnemonic) ∧
    (∀ row ∈ opcodeRows, row.selects p.cmd = true → ∃ i, decode p = .ok i ∧ i.mnemonic = row.mnemonic) ∧
    (∀ x ∈ opcodeRows, ∀ y ∈ opcodeRows, x.selects p.cmd = true → y.selects p.cmd = true → x = y)

/-- R88: the reserved words, as the rule lists them, are the words no row of R84 matches; each is answered
IllegalCommand with no state change; 0x0000 and 0xFFFF are reserved. -/
def Obligations.ReservedWordsAreAnsweredIllegal : Prop :=
  (∀ c : BitVec 16, reservedWord c ↔ ∀ row ∈ opcodeRows, row.selects c = false) ∧
  (∀ (s : State) (p : Packet) (rest : List HostAction), reservedWord p.cmd → s.pending = .command p :: rest →
    step s = .next (({ s with pending := rest } : State).answer .illegalCommand 0)) ∧
  reservedWord 0x0000#16 ∧ reservedWord 0xFFFF#16

/-! ## The step -/

/-- R10, R85: when the packet presented next decodes to a command, the step takes the packet and runs that command. -/
def Obligations.StepRunsTheDecodedCommand : Prop :=
  ∀ (s : State) (p : Packet) (rest : List HostAction) (i : Instr),
    s.pending = .command p :: rest → decode p = .ok i → step s = exec i { s with pending := rest }

/-- The model's own interface (log 1, 2): a packet placed by withFetchWord is the one the next step runs. -/
def Obligations.FetchedWordRuns : Prop :=
  ∀ (s : State) (nbits w : Nat) (i : Instr), decodeTableWord nbits w = some i →
    step (s.withFetchWord nbits w) = exec i s

/-- R210, R213 (the model's reading, log 13): with no action pending the core holds its state. -/
def Obligations.IdleStepHoldsTheState : Prop :=
  ∀ s : State, s.pending = [] → step s = .next s

/-- R36: at power-on both units are unbound, the release log is empty and no byte of `Mem` is known (each is the free value of
power-on, log 7). -/
def Obligations.PowerOnLeavesBothUnitsUnbound : Prop :=
  State.reset.w.bound = false ∧ State.reset.r.bound = false ∧ State.reset.relLog = [] ∧
    ∀ a, State.reset.mem.read a = Config.powerOnByte a

/-- R230: the reset input unbinds both units, leaves `Mem` and `RelLog`, and gives no response. -/
def Obligations.ResetUnbindsBothUnits : Prop :=
  ∀ (s : State) (rest : List HostAction), s.pending = .reset :: rest →
    ∃ t, step s = .next t ∧ t.w.bound = false ∧ t.r.bound = false ∧ t.mem = s.mem ∧ t.relLog = s.relLog ∧
      t.responses = s.responses ∧ t.pending = rest ∧ t.params = s.params

/-- R63 (c), R241, R246 (the stops are the model's: log 10, 11): a host write between commands sets its byte and no other
and touches no other state; beyond the address space it is a fault, in the heap region it is refused. -/
def Obligations.HostWriteSetsOneByte : Prop :=
  ∀ (s : State) (a : Nat) (v : Byte) (rest : List HostAction), s.pending = .write a v :: rest →
    (2 ^ s.params.aw ≤ a → step s = .fault .noSuchAddress) ∧
    (a < 2 ^ s.params.aw → s.params.heapBase ≤ a ∧ a < s.params.heapBase + s.params.heapBytes →
      step s = .refused .hostWroteHeap) ∧
    (a < 2 ^ s.params.aw → ¬(s.params.heapBase ≤ a ∧ a < s.params.heapBase + s.params.heapBytes) →
      ∃ t, step s = .next t ∧ t = { s with pending := rest, mem := t.mem } ∧ t.mem.read a = v ∧
        ∀ b, b ≠ a → t.mem.read b = s.mem.read b)

/-! ## Statuses -/

/-- R201 (and R10, that every command is answered): from a state that meets R24 every packet gets exactly one response,
whose status is the one the fixed order of checks prescribes. -/
def Obligations.StatusFollowsThePriority : Prop :=
  ∀ (s : State) (p : Packet) (rest : List HostAction), s.Inv → s.pending = .command p :: rest →
    ∃ t v, step s = .next t ∧ t.responses = s.responses ++ [⟨prescribedStatus s p, v⟩]

/-- R204: a command that fails answers its status with RESULT = 0 and changes no state. -/
def Obligations.FailureChangesNothing : Prop :=
  ∀ (s t : State) (p : Packet) (rest : List HostAction) (a : Response), s.pending = .command p :: rest →
    step s = .next t → t.responses = s.responses ++ [a] → a.status ≠ .ok →
    a.result = 0 ∧ t = { s with pending := rest, responses := s.responses ++ [a] }

/-- R203: IllegalCommand is raised for a reserved word, an illegal width, an illegal origin and a W.BIT operand above 1, in
every state, and for nothing else. -/
def Obligations.IllegalCommandDependsOnThePacketAlone : Prop :=
  ∀ (s : State) (p : Packet) (rest : List HostAction), s.pending = .command p :: rest →
    (illegalPacket p → step s = .next (({ s with pending := rest } : State).answer .illegalCommand 0)) ∧
    (∀ t v, step s = .next t → t.responses = s.responses ++ [⟨.illegalCommand, v⟩] → illegalPacket p)

/-- R200: the code of each status, and that no other code is a status. -/
def Obligations.StatusCodesAreDistinct : Prop :=
  Status.code .ok = 0#4 ∧ Status.code .insufficientSpace = 1#4 ∧ Status.code .insufficientData = 2#4 ∧
  Status.code .illegalCommand = 3#4 ∧ Status.code .badBindState = 4#4 ∧ Status.code .badRegion = 5#4 ∧
  Status.code .growthExhausted = 6#4 ∧
  (∀ (c : BitVec 4) (st : Status), Status.ofCode c = some st ↔ st.code = c) ∧
  ∀ c : BitVec 4, 7 ≤ c.toNat → Status.ofCode c = none

/-! ## The mask tables -/

/-- R100, R101, R102: which bits of each mask are 1 (position o counts from the most significant bit). -/
def Obligations.MaskTablesHoldTheirBits : Prop :=
  (∀ k ≤ 8, ∀ i < 8, (lowMask k).getLsbD i = decide (i < k)) ∧
  (∀ o < 8, ∀ i < 8, (setMask o).getLsbD i = decide (i = 7 - o)) ∧
  (∀ o < 8, ∀ i < 8, (clearMask o).getLsbD i = !decide (i = 7 - o))

/-! ## Seek, tell and the accessors -/

/-- R130: W.SEEK. -/
def Obligations.WriteSeekSetsTheCursor : Prop :=
  ∀ (s : State) (offset : Word),
    exec (.wSeek .reserved offset) s = .next (s.answer .illegalCommand 0) ∧
    (s.w.bound = false → ∀ origin, origin ≠ .reserved → exec (.wSeek origin offset) s = .next (s.answer .badBindState 0)) ∧
    (s.w.bound = true →
      (∀ origin base, (origin = .start ∧ base = 0 ∨ origin = .current ∧ base = s.w.cur.toNat ∨
          origin = .fromEnd ∧ base = s.w.cap.toNat) →
        exec (.wSeek origin offset) s =
          .next (({ s with w := { s.w with cur := BitVec.ofNat 64 ((base + offset.toNat) % 2 ^ 64) } } : State).answer .ok 0)))

/-- R160: R.SEEK. -/
def Obligations.ReadSeekSetsTheCursor : Prop :=
  ∀ (s : State) (offset : Word),
    exec (.rSeek .reserved offset) s = .next (s.answer .illegalCommand 0) ∧
    (s.r.bound = false → ∀ origin, origin ≠ .reserved → exec (.rSeek origin offset) s = .next (s.answer .badBindState 0)) ∧
    (s.r.bound = true →
      (∀ origin base, (origin = .start ∧ base = 0 ∨ origin = .current ∧ base = s.r.cur.toNat ∨
          origin = .fromEnd ∧ base = s.r.cap.toNat) →
        exec (.rSeek origin offset) s =
          .next (({ s with r := { s.r with cur := BitVec.ofNat 64 ((base + offset.toNat) % 2 ^ 64) } } : State).answer .ok 0)))

/-- R131, R137, R138: W.TELL answers the cursor, W.DATA the base, W.SIZE the byte length, and they change nothing. -/
def Obligations.WriteAccessorsAnswer : Prop :=
  ∀ s : State,
    (s.w.bound = false → ∀ i ∈ [Instr.wTell, .wData, .wSize], exec i s = .next (s.answer .badBindState 0)) ∧
    (s.w.bound = true →
      exec .wTell s = .next (s.answer .ok s.w.cur) ∧ exec .wData s = .next (s.answer .ok s.w.base) ∧
      ∃ n : Word, n.toNat = s.w.cap.toNat / 8 ∧ exec .wSize s = .next (s.answer .ok n))

/-- R161: R.TELL answers the cursor and changes nothing. -/
def Obligations.ReadTellAnswersTheCursor : Prop :=
  ∀ s : State,
    (s.r.bound = false → exec .rTell s = .next (s.answer .badBindState 0)) ∧
    (s.r.bound = true → exec .rTell s = .next (s.answer .ok s.r.cur))

/-- R121 (e): telling right after seeking from the start answers the offset, on either unit. -/
def Obligations.TellAfterSeekAnswersTheOffset : Prop :=
  ∀ (s : State) (offset : Word),
    (s.w.bound = true → ∃ t, exec (.wSeek .start offset) s = .next t ∧ exec .wTell t = .next (t.answer .ok offset)) ∧
    (s.r.bound = true → ∃ t, exec (.rSeek .start offset) s = .next t ∧ exec .rTell t = .next (t.answer .ok offset))

/-! ## Capacity and growth -/

/-- R132, R110, R111: W.ENSURE on a Fixed sink answers whether the bits fit, in unbounded integers, and changes nothing; on
a Growable one it grows by R112 and answers 1, or fails GrowthExhausted. -/
def Obligations.EnsureAnswersOrGrows : Prop :=
  ∀ (s : State) (bits : Word), s.Inv →
    (s.w.bound = false → exec (.wEnsure bits) s = .next (s.answer .badBindState 0)) ∧
    (s.w.bound = true → s.w.variant = .fixed →
      exec (.wEnsure bits) s =
        .next (s.answer .ok (if s.w.cur.toNat + bits.toNat ≤ s.w.cap.toNat then 1 else 0))) ∧
    (s.w.bound = true → s.w.variant = .growable → heapCovers s bits.toNat = false →
      exec (.wEnsure bits) s = .next (s.answer .growthExhausted 0)) ∧
    (s.w.bound = true → s.w.variant = .growable → heapCovers s bits.toNat = true →
      ∃ g, exec (.wEnsure bits) s = .next (g.answer .ok 1) ∧ Grown s g bits.toNat)

/-- R112 ("preserving existing bytes"), S7: after W.ENSURE on a Growable sink, grown or not, every stream bit of the old
buffer reads as before through the current base. -/
def Obligations.GrowthKeepsTheStream : Prop :=
  ∀ (s t : State) (bits : Word), s.Inv → s.w.bound = true → s.w.variant = .growable →
    exec (.wEnsure bits) s = .next t →
    ∀ p < s.w.cap.toNat, sbit t.mem t.w.base.toNat p = sbit s.mem s.w.base.toNat p

/-- S5, S7 (R105, R112): a field written to a Growable sink, grown or not, leaves every other stream bit of the old buffer
as it was, through the current base. -/
def Obligations.GrowableWriteKeepsEarlierFields : Prop :=
  ∀ (s t : State) (width : Nat) (value : Word), s.Inv → s.w.bound = true → s.w.variant = .growable →
    exec (.wUint width value) s = .next t → t.w.cur ≠ s.w.cur →
    ∀ p < s.w.cap.toNat, (p < s.w.cur.toNat ∨ s.w.cur.toNat + width ≤ p) →
      sbit t.mem t.w.base.toNat p = sbit s.mem s.w.base.toNat p

/-! ## The write commands -/

/-- R133: W.BIT. -/
def Obligations.WriteBitStoresOneBit : Prop :=
  ∀ bit : Word,
    (1 < bit.toNat → ∀ s, exec (.wBit bit) s = .next (s.answer .illegalCommand 0)) ∧
    (bit.toNat ≤ 1 → WritesField (.wBit bit) 1 (fun _ => decide (bit.toNat = 1)))

/-- R134: W.UINT stores the low `width` bits of the value, the most significant first. -/
def Obligations.WriteUnsignedStoresTheField : Prop :=
  ∀ (width : Nat) (value : Word),
    (width = 0 ∨ 64 < width → ∀ s, exec (.wUint width value) s = .next (s.answer .illegalCommand 0)) ∧
    (1 ≤ width → width ≤ 64 → WritesField (.wUint width value) width (fun i => value.getLsbD (width - 1 - i)))

/-- R135: W.INT stores the low `width` bits of the two's-complement pattern. -/
def Obligations.WriteTwosComplementStoresTheField : Prop :=
  ∀ (width : Nat) (value : Word),
    (width = 0 ∨ 64 < width → ∀ s, exec (.wInt width value) s = .next (s.answer .illegalCommand 0)) ∧
    (1 ≤ width → width ≤ 64 → WritesField (.wInt width value) width (fun i => value.getLsbD (width - 1 - i)))

/-- R136: W.INTS stores the sign bit and then the low `width - 1` bits of the absolute value. -/
def Obligations.WriteSignMagnitudeStoresTheField : Prop :=
  ∀ (width : Nat) (value : Word),
    (width = 0 ∨ 64 < width → ∀ s, exec (.wInts width value) s = .next (s.answer .illegalCommand 0)) ∧
    (1 ≤ width → width ≤ 64 → WritesField (.wInts width value) width
      (fun i => if i = 0 then decide (value.toInt < 0) else value.toInt.natAbs.testBit (width - 1 - i)))

/-- R133, R135, R136 (f): W.BIT acts as W.UINT of width 1, W.INT as W.UINT, and W.INTS as W.UINT of the packed sign and
magnitude. -/
def Obligations.WriteCommandsShareOneField : Prop :=
  (∀ (s : State) (bit : Word), bit.toNat ≤ 1 → exec (.wBit bit) s = exec (.wUint 1 bit) s) ∧
  (∀ (s : State) (width : Nat) (value : Word), exec (.wInt width value) s = exec (.wUint width value) s) ∧
  (∀ (s : State) (width : Nat) (value : Word), s.Inv → 1 ≤ width → width ≤ 64 →
    exec (.wInts width value) s =
      exec (.wUint width (BitVec.ofNat 64 ((if value.toInt < 0 then 2 ^ (width - 1) else 0) +
        value.toInt.natAbs % 2 ^ (width - 1)))) s)

/-- R106: the source's byte algorithm has exactly the net effect of R105, on every memory and at every cursor. -/
def Obligations.PackingAlgorithmHasTheNetEffect : Prop :=
  ∀ (m : Memory) (base c w : Nat) (v : Word), w ≤ 64 → packField w m base c v w = (m.writeField base c v w, c + w)

/-! ## The read commands -/

/-- R162: R.BIT. -/
def Obligations.ReadBitAnswersTheBit : Prop :=
  ReadsField .rBit 1 (fun bit v => v = if bit 0 then 1 else 0)

/-- R163: R.UINT answers the field, zero-extended. -/
def Obligations.ReadUnsignedAnswersTheField : Prop :=
  ∀ width : Nat,
    (width = 0 ∨ 64 < width → ∀ s, exec (.rUint width) s = .next (s.answer .illegalCommand 0)) ∧
    (1 ≤ width → width ≤ 64 → ReadsField (.rUint width) width
      (fun bit v => ∀ i < 64, v.getLsbD i = (decide (i < width) && bit (width - 1 - i))))

/-- R164, R115: R.INT answers the field sign-extended from its first stream bit. -/
def Obligations.ReadTwosComplementAnswersTheField : Prop :=
  ∀ width : Nat,
    (width = 0 ∨ 64 < width → ∀ s, exec (.rInt width) s = .next (s.answer .illegalCommand 0)) ∧
    (1 ≤ width → width ≤ 64 → ReadsField (.rInt width) width
      (fun bit v => ∀ i < 64, v.getLsbD i = if i < width then bit (width - 1 - i) else bit 0))

/-- R165: R.INTS answers the magnitude, negated if the sign bit is set. -/
def Obligations.ReadSignMagnitudeAnswersTheField : Prop :=
  ∀ width : Nat,
    (width = 0 ∨ 64 < width → ∀ s, exec (.rInts width) s = .next (s.answer .illegalCommand 0)) ∧
    (1 ≤ width → width ≤ 64 → ReadsField (.rInts width) width
      (fun bit v => ∃ m : Word, (∀ i < 64, m.getLsbD i = (decide (i + 1 < width) && bit (width - 1 - i))) ∧
        v.toInt = if bit 0 then -(m.toNat : Int) else m.toNat))

/-- R54, R30: the answer of a read depends on the stream bits of its field alone, not on where the buffer lies, on the
cursor, or on anything else of the state. -/
def Obligations.ReadDependsOnItsBitsAlone : Prop :=
  ∀ (s s' t t' : State) (width : Nat) (i : Instr),
    (i = .rUint width ∨ i = .rInt width ∨ i = .rInts width ∨ (i = .rBit ∧ width = 1)) →
    exec i s = .next t → exec i s' = .next t' → t.r.cur ≠ s.r.cur → t'.r.cur ≠ s'.r.cur →
    (∀ k < width, sbit s.mem s.r.base.toNat (s.r.cur.toNat + k) = sbit s'.mem s'.r.base.toNat (s'.r.cur.toNat + k)) →
    t.responses.getLast? = t'.responses.getLast?

/-! ## Round trips (40_bit_primitives.md R121) -/

/-- R121 (a), S2, R114: a value written by W.UINT and read back by R.UINT loses the bits above the width and no other, so
it comes back itself exactly when it is below `2^width`. -/
def Obligations.RoundTripUnsigned : Prop :=
  ∀ (s : State) (width : Nat) (value : Word), ReadsWhatIsWritten s width → 1 ≤ width → width ≤ 64 →
    ∃ t u got, exec (.wUint width value) s = .next t ∧ exec (.rUint width) t = .next u ∧
      u.responses = s.responses ++ [⟨.ok, 0⟩, ⟨.ok, got⟩] ∧ got.toNat = value.toNat % 2 ^ width ∧
      (got = value ↔ value.toNat < 2 ^ width)

/-- R121 (b), S3, R115: a value written by W.INT and read back by R.INT is its low bits sign-extended, itself exactly when
it lies in `-2^(width-1) .. 2^(width-1) - 1`. -/
def Obligations.RoundTripTwosComplement : Prop :=
  ∀ (s : State) (width : Nat) (value : Word), ReadsWhatIsWritten s width → 1 ≤ width → width ≤ 64 →
    ∃ t u got, exec (.wInt width value) s = .next t ∧ exec (.rInt width) t = .next u ∧
      u.responses = s.responses ++ [⟨.ok, 0⟩, ⟨.ok, got⟩] ∧ got = (value.setWidth width).signExtend 64 ∧
      (got = value ↔ -(2 ^ (width - 1) : Int) ≤ value.toInt ∧ value.toInt ≤ 2 ^ (width - 1) - 1)

/-- R121 (c), S4, R116: a value written by W.INTS and read back by R.INTS keeps its sign and the low bits of its magnitude
(a negative zero reads as 0), itself exactly when it lies in `-(2^(width-1) - 1) .. 2^(width-1) - 1`. -/
def Obligations.RoundTripSignMagnitude : Prop :=
  ∀ (s : State) (width : Nat) (value : Word), ReadsWhatIsWritten s width → 1 ≤ width → width ≤ 64 →
    ∃ t u got, exec (.wInts width value) s = .next t ∧ exec (.rInts width) t = .next u ∧
      u.responses = s.responses ++ [⟨.ok, 0⟩, ⟨.ok, got⟩] ∧
      got.toInt = (if value.toInt < 0 then -1 else 1) * ((value.toInt.natAbs % 2 ^ (width - 1) : Nat) : Int) ∧
      (got = value ↔ -(2 ^ (width - 1) - 1 : Int) ≤ value.toInt ∧ value.toInt ≤ 2 ^ (width - 1) - 1)

/-! ## Construction and destruction -/

/-- R180, R181, R188: W.BORROW and W.OWN bind a Fixed sink at cursor 0 to exactly the region given, or fail and bind nothing;
only the Write Unit changes (and, for the token W.BORROW leaves unspecified, the model's draw counter). -/
def Obligations.WriteUnitBindsARegion : Prop :=
  ∀ (s : State) (base nbytes token : Word),
    (s.w.bound = true →
      exec (.wBorrow base nbytes) s = .next (s.answer .badBindState 0) ∧
      exec (.wOwn base nbytes token) s = .next (s.answer .badBindState 0)) ∧
    (s.w.bound = false → ¬regionFits s base nbytes →
      exec (.wBorrow base nbytes) s = .next (s.answer .badRegion 0) ∧
      exec (.wOwn base nbytes token) s = .next (s.answer .badRegion 0)) ∧
    (s.w.bound = false → regionFits s base nbytes →
      ∃ cap : Word, cap.toNat = 8 * nbytes.toNat ∧
        (∃ free d, exec (.wBorrow base nbytes) s =
          .next (({ s with draws := d, w := ⟨true, .fixed, .borrowed, free, base, cap, 0⟩ } : State).answer .ok 0)) ∧
        exec (.wOwn base nbytes token) s =
          .next (({ s with w := ⟨true, .fixed, .owned, token, base, cap, 0⟩ } : State).answer .ok 0))

/-- R184, R185, R188: R.BORROW and R.OWN, likewise. -/
def Obligations.ReadUnitBindsARegion : Prop :=
  ∀ (s : State) (base nbytes token : Word),
    (s.r.bound = true →
      exec (.rBorrow base nbytes) s = .next (s.answer .badBindState 0) ∧
      exec (.rOwn base nbytes token) s = .next (s.answer .badBindState 0)) ∧
    (s.r.bound = false → ¬regionFits s base nbytes →
      exec (.rBorrow base nbytes) s = .next (s.answer .badRegion 0) ∧
      exec (.rOwn base nbytes token) s = .next (s.answer .badRegion 0)) ∧
    (s.r.bound = false → regionFits s base nbytes →
      ∃ cap : Word, cap.toNat = 8 * nbytes.toNat ∧
        (∃ free d, exec (.rBorrow base nbytes) s =
          .next (({ s with draws := d, r := ⟨true, .borrowed, free, base, cap, 0⟩ } : State).answer .ok 0)) ∧
        exec (.rOwn base nbytes token) s =
          .next (({ s with r := ⟨true, .owned, token, base, cap, 0⟩ } : State).answer .ok 0))

/-- R182: W.ALLOC binds a Growable sink of INIT_BYTES bytes at cursor 0 somewhere in the heap region; only that buffer's
bytes and the Write Unit change. -/
def Obligations.AllocateBindsAGrowableBuffer : Prop :=
  ∀ s : State, s.Inv →
    (s.w.bound = true → exec .wAlloc s = .next (s.answer .badBindState 0)) ∧
    (s.w.bound = false →
      ∃ t free, exec .wAlloc s = .next t ∧
        t = { s with mem := t.mem, draws := t.draws, responses := s.responses ++ [⟨.ok, 0⟩],
                     w := ⟨true, .growable, .owned, free, t.w.base, t.w.cap, 0⟩ } ∧
        t.w.cap.toNat = 8 * s.params.initBytes ∧ s.params.heapBase ≤ t.w.base.toNat ∧
        t.w.base.toNat + s.params.initBytes ≤ s.params.heapBase + s.params.heapBytes ∧
        ∀ a, ¬inRegion t.w.base t.w.cap a → t.mem.read a = s.mem.read a)

/-- R183: W.UNBIND unbinds; a Fixed Owned buffer gives its release event, a Growable one's bytes alone may change. -/
def Obligations.WriteUnbindReleases : Prop :=
  ∀ s : State,
    (s.w.bound = false → exec .wUnbind s = .next (s.answer .badBindState 0)) ∧
    (s.w.bound = true →
      ∃ t, exec .wUnbind s = .next t ∧ t.w.bound = false ∧
        t = { s with w := t.w, mem := t.mem, relLog := t.relLog, draws := t.draws,
                     responses := s.responses ++ [⟨.ok, 0⟩] } ∧
        (s.w.variant = .fixed → s.w.own = .owned →
          t.relLog = s.relLog ++ [⟨s.w.token, s.w.base, s.w.cap.toNat / 8⟩]) ∧
        (s.w.variant = .growable ∨ s.w.own = .borrowed → t.relLog = s.relLog) ∧
        (s.w.variant = .fixed → t.mem = s.mem) ∧
        (∀ a, ¬inRegion s.w.base s.w.cap a → t.mem.read a = s.mem.read a))

/-- R186: R.UNBIND unbinds; an Owned buffer gives its release event; `Mem` is not changed. -/
def Obligations.ReadUnbindReleases : Prop :=
  ∀ s : State,
    (s.r.bound = false → exec .rUnbind s = .next (s.answer .badBindState 0)) ∧
    (s.r.bound = true →
      ∃ t, exec .rUnbind s = .next t ∧ t.r.bound = false ∧
        t = { s with r := t.r, relLog := t.relLog, draws := t.draws, responses := s.responses ++ [⟨.ok, 0⟩] } ∧
        (s.r.own = .owned → t.relLog = s.relLog ++ [⟨s.r.token, s.r.base, s.r.cap.toNat / 8⟩]) ∧
        (s.r.own = .borrowed → t.relLog = s.relLog))

/-- R187: the release log changes only at an unbind of an Owned Fixed unit, by that unit's one event. -/
def Obligations.ReleaseEventsComeFromOwnedUnbindsAlone : Prop :=
  ∀ s t : State, step s = .next t → t.relLog ≠ s.relLog →
    ∃ p rest, s.pending = .command p :: rest ∧
      ((decode p = .ok .wUnbind ∧ s.w.bound = true ∧ s.w.variant = .fixed ∧ s.w.own = .owned ∧
          t.relLog = s.relLog ++ [⟨s.w.token, s.w.base, s.w.cap.toNat / 8⟩]) ∨
       (decode p = .ok .rUnbind ∧ s.r.bound = true ∧ s.r.own = .owned ∧
          t.relLog = s.relLog ++ [⟨s.r.token, s.r.base, s.r.cap.toNat / 8⟩]))

/-- R233: a unit becomes bound only by a successful bind command of its own and unbound only by its own unbind or by
reset. -/
def Obligations.BindStateChangesOnlyByBindAndUnbind : Prop :=
  ∀ s t : State, step s = .next t →
    (s.w.bound = false → t.w.bound = true →
      ∃ p rest i, s.pending = .command p :: rest ∧ decode p = .ok i ∧ isWriteCommand i = true ∧
        isBindCommand i = true ∧ t.responses = s.responses ++ [⟨.ok, 0⟩]) ∧
    (s.w.bound = true → t.w.bound = false →
      (∃ p rest, s.pending = .command p :: rest ∧ decode p = .ok .wUnbind) ∨ ∃ rest, s.pending = .reset :: rest) ∧
    (s.r.bound = false → t.r.bound = true →
      ∃ p rest i, s.pending = .command p :: rest ∧ decode p = .ok i ∧ isWriteCommand i = false ∧
        isBindCommand i = true ∧ t.responses = s.responses ++ [⟨.ok, 0⟩]) ∧
    (s.r.bound = true → t.r.bound = false →
      (∃ p rest, s.pending = .command p :: rest ∧ decode p = .ok .rUnbind) ∨ ∃ rest, s.pending = .reset :: rest)

/-! ## Rules of the whole machine -/

/-- R24, R22, R23, R31: every step keeps the invariant, from every state that meets it. -/
def Obligations.StepKeepsTheInvariant : Prop :=
  ∀ s t : State, s.Inv → step s = .next t → t.Inv

/-- R24, R36: the reset state meets the invariant (its heap region and its unbound fields are the model's: log 4, 6). -/
def Obligations.ResetMeetsTheInvariant : Prop := State.reset.Inv

/-- R24 (e), R26 to R29: while a unit stays bound its variant, ownership and token do not change, nor do the base and
capacity of a Fixed sink or of the reader; a Growable sink's capacity is only multiplied by powers of two. -/
def Obligations.BindingIsImmutableWhileBound : Prop :=
  ∀ s t : State, s.Inv → step s = .next t →
    (s.w.bound = true → t.w.bound = true →
      t.w.variant = s.w.variant ∧ t.w.own = s.w.own ∧ t.w.token = s.w.token ∧
      (s.w.variant = .fixed → t.w.base = s.w.base ∧ t.w.cap = s.w.cap) ∧
      ∃ k, t.w.cap.toNat = s.w.cap.toNat * 2 ^ k) ∧
    (s.r.bound = true → t.r.bound = true →
      t.r.own = s.r.own ∧ t.r.token = s.r.token ∧ t.r.base = s.r.base ∧ t.r.cap = s.r.cap)

/-- R25, R23, R59: a command of one unit changes nothing of the other unit, and a Read Unit command writes no memory; no
command changes the parameters or the host's coming actions. -/
def Obligations.UnitsDoNotTouchEachOther : Prop :=
  ∀ (i : Instr) (s t : State), exec i s = .next t →
    (isWriteCommand i = true → t.r = s.r) ∧
    (isWriteCommand i = false → t.w = s.w) ∧
    (mayChangeMem i = false → t.mem = s.mem) ∧
    t.params = s.params ∧ t.pending = s.pending

/-- R56, R57, R238: no command changes a byte outside the Write Unit's region, the one it had or the one it has after
the command, wherever a seek has put the cursor. -/
def Obligations.StoresStayInTheBoundRegion : Prop :=
  ∀ (s t : State) (p : Packet) (rest : List HostAction), s.Inv → s.pending = .command p :: rest → step s = .next t →
    ∀ a, t.mem.read a ≠ s.mem.read a →
      (s.w.bound = true ∧ inRegion s.w.base s.w.cap a) ∨ (t.w.bound = true ∧ inRegion t.w.base t.w.cap a)

/-- R25: what a command that succeeds does to a cursor: the bind commands set it to 0, a one-bit command advances it by 1, a
field command by its width, and the tell, ensure and accessor commands leave it. (The seeks are in statements of their own,
and an unbound unit's cursor is unspecified, R35.) -/
def Obligations.CursorsAdvanceByTheWidth : Prop :=
  ∀ (i : Instr) (s t : State) (v : Word), s.Inv → exec i s = .next t → t.responses = s.responses ++ [⟨.ok, v⟩] →
    (isWriteCommand i = true → isBindCommand i = true → t.w.cur = 0) ∧
    (isWriteCommand i = false → isBindCommand i = true → t.r.cur = 0) ∧
    (∀ bit, i = .wBit bit → t.w.cur.toNat = s.w.cur.toNat + 1) ∧
    (∀ width value, i = .wUint width value ∨ i = .wInt width value ∨ i = .wInts width value →
      t.w.cur.toNat = s.w.cur.toNat + width) ∧
    (i = .rBit → t.r.cur.toNat = s.r.cur.toNat + 1) ∧
    (∀ width, i = .rUint width ∨ i = .rInt width ∨ i = .rInts width → t.r.cur.toNat = s.r.cur.toNat + width) ∧
    (i = .wTell ∨ i = .wData ∨ i = .wSize ∨ (∃ bits, i = .wEnsure bits) → t.w.cur = s.w.cur) ∧
    (i = .rTell → t.r.cur = s.r.cur)

/-- R20, R32, R33, R211: earlier responses and release events are never read: for the same draws, a command run with other
logs does the same and appends the same. That the two runs see the same free values is the model's choice (log 5: both are at
one draw number, which is unsafe for a claim that compares two runs), and so is that State keeps the responses (log 3). -/
def Obligations.OutputsAreNeverRead : Prop :=
  ∀ (i : Instr) (s t : State), exec i s = .next t →
    ∃ (a : Response) (events : List ReleaseEvent),
      t.responses = s.responses ++ [a] ∧ t.relLog = s.relLog ++ events ∧
      ∀ (answers : List Response) (log : List ReleaseEvent),
        exec i { s with responses := answers, relLog := log } =
          .next { t with responses := answers ++ [a], relLog := log ++ events }
end

