-- ==== Sys2Proof/Laws/Memory.lean ====
section
/-! SUPPORT. `Mem`: read after write, the canonical form, and everything each memory operation can do to a read. -/

namespace Sys2Proof.Machine

/-! ## The list of cells -/

theorem cellsLookup_insert (cs : List Host.Cell) (a : Nat) (v : Byte) (x : Nat) :
    cellsLookup (cellsInsert cs a v) x = if x = a then some v else cellsLookup cs x := by
  induction cs with
  | nil => simp [cellsInsert, cellsLookup]
  | cons c rest ih =>
    obtain ⟨b, u⟩ := c
    simp only [cellsInsert]
    split
    · simp only [cellsLookup]
    · split
      · rename_i h; subst h
        simp only [cellsLookup]; split <;> rfl
      · simp only [cellsLookup, ih]
        split <;> split <;> simp_all

theorem mem_cellsInsert {cs : List Host.Cell} {a : Nat} {v : Byte} {c : Host.Cell}
    (h : c ∈ cellsInsert cs a v) : c = (a, v) ∨ c ∈ cs := by
  induction cs with
  | nil => simpa [cellsInsert] using h
  | cons d rest ih =>
    obtain ⟨b, u⟩ := d
    simp only [cellsInsert] at h
    split at h
    · simpa using h
    · split at h
      · simp only [List.mem_cons] at h ⊢; tauto
      · simp only [List.mem_cons] at h ⊢
        rcases h with h | h
        · tauto
        · rcases ih h with h | h <;> tauto

theorem cellsInsert_rising {cs : List Host.Cell} {a : Nat} {v : Byte}
    (h : cs.Pairwise (fun x y => x.1 < y.1)) : (cellsInsert cs a v).Pairwise (fun x y => x.1 < y.1) := by
  induction cs with
  | nil => simp [cellsInsert]
  | cons d rest ih =>
    obtain ⟨b, u⟩ := d
    rw [List.pairwise_cons] at h
    simp only [cellsInsert]
    split
    · rename_i hab
      refine List.pairwise_cons.2 ⟨fun c hc => ?_, List.pairwise_cons.2 h⟩
      rcases List.mem_cons.1 hc with rfl | hc
      · exact hab
      · exact lt_trans hab (h.1 c hc)
    · split
      · rename_i hab; subst hab
        exact List.pairwise_cons.2 h
      · refine List.pairwise_cons.2 ⟨fun c hc => ?_, ih h.2⟩
        rcases mem_cellsInsert hc with rfl | hc
        · show b < a; omega
        · exact h.1 c hc

theorem cellsLookup_filter (cs : List Host.Cell) (keep : Nat → Bool) (x : Nat) :
    cellsLookup (cs.filter (fun c => keep c.1)) x = if keep x then cellsLookup cs x else none := by
  induction cs with
  | nil => simp [cellsLookup]
  | cons c rest ih =>
    obtain ⟨b, u⟩ := c
    by_cases hb : keep b <;> by_cases hx : x = b <;> simp_all [cellsLookup]

theorem cellsLookup_eq_none {cs : List Host.Cell} {x : Nat} (h : ∀ c ∈ cs, x < c.1) : cellsLookup cs x = none := by
  induction cs with
  | nil => rfl
  | cons c rest ih =>
    obtain ⟨b, u⟩ := c
    have hb : x < b := h (b, u) (by simp)
    have : x ≠ b := by omega
    simp only [cellsLookup, this, if_false]
    exact ih fun c hc => h c (by simp [hc])

/-- Rising lists that look up the same bytes are the same list. -/
theorem cells_ext : ∀ {cs ds : List Host.Cell}, cs.Pairwise (fun x y => x.1 < y.1) →
    ds.Pairwise (fun x y => x.1 < y.1) → (∀ x, cellsLookup cs x = cellsLookup ds x) → cs = ds
  | [], [], _, _, _ => rfl
  | [], (b, u) :: ds, _, _, h => by simpa [cellsLookup] using h b
  | (b, u) :: cs, [], _, _, h => by simpa [cellsLookup] using h b
  | (a, u) :: cs, (b, v) :: ds, hc, hd, h => by
    rw [List.pairwise_cons] at hc hd
    have low : ∀ x, x < a → cellsLookup ((a, u) :: cs) x = none := fun x hx =>
      cellsLookup_eq_none fun c hm => by
        rcases List.mem_cons.1 hm with rfl | hm
        · exact hx
        · exact lt_trans hx (hc.1 c hm)
    have low' : ∀ x, x < b → cellsLookup ((b, v) :: ds) x = none := fun x hx =>
      cellsLookup_eq_none fun c hm => by
        rcases List.mem_cons.1 hm with rfl | hm
        · exact hx
        · exact lt_trans hx (hd.1 c hm)
    have hab : a = b := by
      rcases lt_trichotomy a b with hlt | heq | hgt
      · have := h a; rw [low' a hlt] at this; simp [cellsLookup] at this
      · exact heq
      · have := h b; rw [low b hgt] at this; simp [cellsLookup] at this
    subst hab
    have huv : u = v := by simpa [cellsLookup] using h a
    subst huv
    have rest : cs = ds := cells_ext hc.2 hd.2 fun x => by
      by_cases hx : x = a
      · subst hx
        rw [cellsLookup_eq_none hc.1, cellsLookup_eq_none hd.1]
      · simpa [cellsLookup, hx] using h x
    rw [rest]

/-! ## Reads -/

@[simp] theorem read_write_same (m : Memory) (a : Nat) (v : Byte) : (m.write a v).read a = v := by
  simp [Memory.read, Memory.write, cellsLookup_insert]

theorem read_write (m : Memory) (a : Nat) (v : Byte) (x : Nat) :
    (m.write a v).read x = if x = a then v else m.read x := by
  simp only [Memory.read, Memory.write, cellsLookup_insert]
  split <;> simp

theorem read_write_other (m : Memory) {a x : Nat} (v : Byte) (h : x ≠ a) : (m.write a v).read x = m.read x := by
  simp [read_write, h]

theorem read_writeList (m : Memory) (a : Nat) (vs : List Byte) (x : Nat) :
    (m.writeList a vs).read x = if a ≤ x ∧ x < a + vs.length then vs.getD (x - a) 0 else m.read x := by
  induction vs generalizing m a with
  | nil => simp [Memory.writeList]
  | cons v rest ih =>
    simp only [Memory.writeList, ih, read_write, List.length_cons]
    by_cases hx : x = a
    · subst hx
      simp
    · by_cases hin : a ≤ x ∧ x < a + (rest.length + 1)
      · have e : x - a = (x - (a + 1)) + 1 := by omega
        rw [if_pos (by omega), if_pos hin, e]; simp
      · rw [if_neg (by omega), if_neg hin, if_neg hx]

theorem read_forget_outside (m : Memory) {lo len d a : Nat} (h : a < lo ∨ lo + len ≤ a) :
    (m.forget lo len d).read a = m.read a := by
  have hlist : unlistedByte (⟨lo, len, d⟩ :: m.forgotten) a = unlistedByte m.forgotten a := by
    simp only [unlistedByte]
    rw [if_neg (by omega)]
  simp only [Memory.read, Memory.forget, hlist]
  rw [cellsLookup_filter m.cells (fun k => decide (k < lo ∨ lo + len ≤ k))]
  simp [h]

theorem read_forget_inside (m : Memory) {lo len d a : Nat} (h : lo ≤ a) (h' : a < lo + len) :
    (m.forget lo len d).read a = Config.freeByte d a := by
  simp only [Memory.read, Memory.forget]
  rw [cellsLookup_filter m.cells (fun k => decide (k < lo ∨ lo + len ≤ k))]
  have : ¬(a < lo ∨ lo + len ≤ a) := by omega
  simp [this, unlistedByte, h, h']

@[simp] theorem bytes_length (m : Memory) (a len : Nat) : (m.bytes a len).length = len := by simp [Memory.bytes]

theorem bytes_getD (m : Memory) {a len j : Nat} (h : j < len) : (m.bytes a len).getD j 0 = m.read (a + j) := by
  simp [Memory.bytes, h]

/-- R112 step 5: the old bytes stand, in order, at the new base. -/
theorem read_relocate_kept (m : Memory) {old oldLen new newLen d j : Nat} (h : j < oldLen) :
    (m.relocate old oldLen new newLen d).read (new + j) = m.read (old + j) := by
  simp only [Memory.relocate, read_writeList, bytes_length]
  rw [if_pos (by omega), Nat.add_sub_cancel_left, bytes_getD m h]

/-- R112 step 6: "every byte of Mem outside the two regions is unchanged". -/
theorem read_relocate_outside (m : Memory) {old oldLen new newLen d a : Nat} (hlen : oldLen ≤ newLen)
    (hold : a < old ∨ old + oldLen ≤ a) (hnew : a < new ∨ new + newLen ≤ a) :
    (m.relocate old oldLen new newLen d).read a = m.read a := by
  simp only [Memory.relocate, read_writeList, bytes_length]
  rw [if_neg (by omega), read_forget_outside _ hnew, read_forget_outside _ hold]

/-! ## The canonical form -/

/-- Memories in canonical form with the same forgotten regions and the same listed bytes are equal. -/
theorem memory_ext {m m' : Memory} (h : m.wf) (h' : m'.wf) (hf : m.forgotten = m'.forgotten)
    (hc : ∀ x, cellsLookup m.cells x = cellsLookup m'.cells x) : m = m' := by
  obtain ⟨cs, fs⟩ := m
  obtain ⟨ds, gs⟩ := m'
  obtain rfl : fs = gs := hf
  obtain rfl : cs = ds := cells_ext h h' hc
  rfl

theorem wf_write {m : Memory} (h : m.wf) (a : Nat) (v : Byte) : (m.write a v).wf := cellsInsert_rising h

theorem wf_writeList {m : Memory} (h : m.wf) (a : Nat) (vs : List Byte) : (m.writeList a vs).wf := by
  induction vs generalizing m a with
  | nil => exact h
  | cons v rest ih => exact ih (wf_write h a v) (a + 1)

theorem wf_forget {m : Memory} (h : m.wf) (lo len d : Nat) : (m.forget lo len d).wf := List.Pairwise.filter _ h

theorem wf_relocate {m : Memory} (h : m.wf) (old oldLen new newLen d : Nat) :
    (m.relocate old oldLen new newLen d).wf := wf_writeList (wf_forget (wf_forget h ..) ..) ..

/-! ## Every listed address exists -/

/-- Every listed byte lies below a bound. -/
abbrev listedBelow (m : Memory) (top : Nat) : Prop := ∀ c ∈ m.cells, c.1 < top

theorem listedBelow_write {m : Memory} {top a : Nat} (h : listedBelow m top) (ha : a < top) (v : Byte) :
    listedBelow (m.write a v) top := fun c hc => by
  rcases mem_cellsInsert hc with rfl | hc
  · exact ha
  · exact h c hc

theorem listedBelow_writeList {m : Memory} {top a : Nat} {vs : List Byte} (h : listedBelow m top)
    (ha : a + vs.length ≤ top) : listedBelow (m.writeList a vs) top := by
  induction vs generalizing m a with
  | nil => exact h
  | cons v rest ih =>
    simp only [List.length_cons] at ha
    exact ih (listedBelow_write h (by omega) v) (by omega)

theorem listedBelow_forget {m : Memory} {top : Nat} (h : listedBelow m top) (lo len d : Nat) :
    listedBelow (m.forget lo len d) top := fun c hc => h c (List.mem_of_mem_filter hc)

theorem listedBelow_relocate {m : Memory} {top old oldLen new newLen d : Nat} (h : listedBelow m top)
    (hnew : new + oldLen ≤ top) : listedBelow (m.relocate old oldLen new newLen d) top :=
  listedBelow_writeList (listedBelow_forget (listedBelow_forget h _ _ _) _ _ _) (by simpa using hnew)

end Sys2Proof.Machine
end

