-- ==== Sys2Proof/Laws/Bits.lean ====
section
/-! SUPPORT. Stream bits: what the field write, the bit write and the reads do, bit by bit. -/

namespace Sys2Proof.Machine

/-! ## One byte -/

/-- The byte at stream position k of a spliced byte (R105). -/
theorem spliceByte_bit (old : Byte) (j c : Nat) (v : Word) (w : Nat) {k : Nat} (hk : k < 8) :
    (spliceByte old j c v w).getLsbD (7 - k) =
      if c ≤ 8 * j + k ∧ 8 * j + k < c + w then fieldBit v w (8 * j + k - c) else old.getLsbD (7 - k) := by
  have h : (spliceByte old j c v w).getLsbD (7 - k) = (spliceByte old j c v w).getMsbD k := by
    rw [BitVec.getMsbD_eq_getLsbD]; simp [hk]
  rw [h]
  simp only [spliceByte]
  erw [BitVec.getMsbD_ofBoolListBE]
  interval_cases k <;> rfl

/-- A byte is known by its stream bits. -/
theorem byte_ext {x y : Byte} (h : ∀ k < 8, x.getLsbD (7 - k) = y.getLsbD (7 - k)) : x = y := by
  apply BitVec.eq_of_getLsbD_eq
  intro i hi
  have := h (7 - i) (by omega)
  rwa [show 7 - (7 - i) = i by omega] at this

/-! ## The field write -/

theorem read_spliceFrom (m : Memory) (base c : Nat) (v : Word) (w n j x : Nat) :
    (m.spliceFrom base c v w n j).read x =
      if base + j ≤ x ∧ x < base + j + n then spliceByte (m.read x) (x - base) c v w else m.read x := by
  induction n generalizing m j with
  | zero => simp [Memory.spliceFrom]
  | succ n ih =>
    simp only [Memory.spliceFrom, ih, read_write]
    by_cases hx : x = base + j
    · subst hx
      simp
    · by_cases hin : base + j ≤ x ∧ x < base + j + (n + 1)
      · rw [if_pos (by omega), if_pos hin, if_neg hx]
      · rw [if_neg (by omega), if_neg hin, if_neg hx]

/-- R105, whole: the stream bits of the field hold it and every other bit of `Mem` is unchanged. -/
theorem writeField_bit (m : Memory) (base c : Nat) (v : Word) (w x : Nat) {k : Nat} (hk : k < 8) :
    ((m.writeField base c v w).read x).getLsbD (7 - k) =
      if base ≤ x ∧ c ≤ 8 * (x - base) + k ∧ 8 * (x - base) + k < c + w then fieldBit v w (8 * (x - base) + k - c)
      else (m.read x).getLsbD (7 - k) := by
  simp only [Memory.writeField, read_spliceFrom, touchedBytes]
  by_cases hw : w = 0
  · subst hw
    simp only [if_true]
    rw [if_neg (by omega), if_neg (by omega)]
  · simp only [hw, if_false]
    by_cases hin : base + c / 8 ≤ x ∧ x < base + c / 8 + ((c % 8 + w - 1) / 8 + 1)
    · rw [if_pos hin, spliceByte_bit _ _ _ _ _ hk]
      by_cases hf : c ≤ 8 * (x - base) + k ∧ 8 * (x - base) + k < c + w
      · rw [if_pos hf, if_pos ⟨by omega, hf⟩]
      · rw [if_neg hf, if_neg (by tauto)]
    · rw [if_neg hin, if_neg (by omega)]

/-- Bytes outside the footprint of R56 are not written. -/
theorem writeField_byte (m : Memory) (base c : Nat) (v : Word) {w x : Nat} (hw : 1 ≤ w)
    (h : x < base + c / 8 ∨ base + (c + w - 1) / 8 < x) : (m.writeField base c v w).read x = m.read x := by
  simp only [Memory.writeField, read_spliceFrom, touchedBytes]
  rw [if_neg (by omega : ¬w = 0), if_neg (by omega)]

@[simp] theorem writeField_zero (m : Memory) (base c : Nat) (v : Word) : m.writeField base c v 0 = m := rfl

/-- The stream bits of a buffer after a field write. -/
theorem sbit_writeField (m : Memory) (base c : Nat) (v : Word) (w p : Nat) :
    sbit (m.writeField base c v w) base p = if c ≤ p ∧ p < c + w then fieldBit v w (p - c) else sbit m base p := by
  simp only [sbit]
  rw [writeField_bit m base c v w _ (Nat.mod_lt p (by decide)), Nat.add_sub_cancel_left]
  have e : 8 * (p / 8) + p % 8 = p := by omega
  rw [e]
  simp

@[simp] theorem writeField_forgotten (m : Memory) (base c : Nat) (v : Word) (w : Nat) :
    (m.writeField base c v w).forgotten = m.forgotten := by
  simp only [Memory.writeField]
  generalize touchedBytes c w = n
  generalize c / 8 = j
  induction n generalizing m j with
  | zero => rfl
  | succ n ih => simp only [Memory.spliceFrom, ih, Memory.write]

theorem wf_writeField {m : Memory} (h : m.wf) (base c : Nat) (v : Word) (w : Nat) : (m.writeField base c v w).wf := by
  simp only [Memory.writeField]
  generalize touchedBytes c w = n
  generalize c / 8 = j
  induction n generalizing m j with
  | zero => exact h
  | succ n ih => exact ih (wf_write h _ _) (j + 1)

theorem listedBelow_spliceFrom {m : Memory} {top base c w n j : Nat} {v : Word} (h : listedBelow m top)
    (hn : base + j + n ≤ top) : listedBelow (m.spliceFrom base c v w n j) top := by
  induction n generalizing m j with
  | zero => exact h
  | succ n ih => exact ih (listedBelow_write h (by omega) _) (by omega)

theorem listedBelow_writeField {m : Memory} {top base c w : Nat} {v : Word} (h : listedBelow m top)
    (hn : base + (c + w + 7) / 8 ≤ top) : listedBelow (m.writeField base c v w) top := by
  simp only [Memory.writeField]
  refine listedBelow_spliceFrom h ?_
  simp only [touchedBytes]
  split <;> omega

/-- Which addresses are listed after a field write: those that were and those of the footprint. -/
theorem lookup_spliceFrom (m : Memory) (base c : Nat) (v : Word) (w n j x : Nat) :
    cellsLookup (m.spliceFrom base c v w n j).cells x =
      if base + j ≤ x ∧ x < base + j + n then some (spliceByte (m.read x) (x - base) c v w)
      else cellsLookup m.cells x := by
  induction n generalizing m j with
  | zero => simp [Memory.spliceFrom]
  | succ n ih =>
    simp only [Memory.spliceFrom, ih, read_write]
    simp only [Memory.write, cellsLookup_insert]
    by_cases hx : x = base + j
    · subst hx
      simp
    · by_cases hin : base + j ≤ x ∧ x < base + j + (n + 1)
      · rw [if_pos (by omega), if_pos hin, if_neg hx]
      · rw [if_neg (by omega), if_neg hin, if_neg hx]

theorem lookup_writeField (m : Memory) (base c : Nat) (v : Word) (w x : Nat) :
    cellsLookup (m.writeField base c v w).cells x =
      if 1 ≤ w ∧ base + c / 8 ≤ x ∧ 8 * (x - base) < c + w then some ((m.writeField base c v w).read x)
      else cellsLookup m.cells x := by
  simp only [Memory.writeField, lookup_spliceFrom, read_spliceFrom]
  by_cases hw : w = 0
  · subst hw
    rw [if_neg (by simp [touchedBytes]), if_neg (by omega)]
  · have ht : touchedBytes c w = (c % 8 + w - 1) / 8 + 1 := by simp [touchedBytes, hw]
    rw [ht]
    by_cases h : base + c / 8 ≤ x ∧ x < base + c / 8 + ((c % 8 + w - 1) / 8 + 1)
    · rw [if_pos h, if_pos h, if_pos (by omega)]
    · rw [if_neg h, if_neg (by omega)]

/-- A field written in two parts, its first bit and the rest, is the field written whole. -/
theorem writeField_split {m : Memory} (hm : m.wf) (base c w : Nat) (a b v : Word) (hw : 1 ≤ w)
    (h0 : fieldBit v w 0 = fieldBit a 1 0)
    (h1 : ∀ i, 1 ≤ i → i < w → fieldBit v w i = fieldBit b (w - 1) (i - 1)) :
    (m.writeField base c a 1).writeField base (c + 1) b (w - 1) = m.writeField base c v w := by
  have hr : ∀ x, ((m.writeField base c a 1).writeField base (c + 1) b (w - 1)).read x =
      (m.writeField base c v w).read x := by
    intro x
    apply byte_ext
    intro k hk
    rw [writeField_bit _ _ _ _ _ _ hk, writeField_bit _ _ _ _ _ _ hk, writeField_bit _ _ _ _ _ _ hk]
    by_cases hA : base ≤ x ∧ c ≤ 8 * (x - base) + k ∧ 8 * (x - base) + k < c + w
    · rw [if_pos hA]
      by_cases hB : 8 * (x - base) + k = c
      · rw [if_neg (by omega), if_pos (by omega), hB, Nat.sub_self]; exact h0.symm
      · rw [if_pos (by omega), h1 _ (by omega) (by omega)]; congr 1
    · rw [if_neg hA, if_neg (by omega), if_neg (by omega)]
  apply memory_ext (wf_writeField (wf_writeField hm ..) ..) (wf_writeField hm ..) (by simp)
  intro x
  rw [lookup_writeField, lookup_writeField m base c v, lookup_writeField m, hr]
  by_cases hin : 1 ≤ w ∧ base + c / 8 ≤ x ∧ 8 * (x - base) < c + w
  · rw [if_pos hin]
    by_cases h2 : 1 ≤ w - 1 ∧ base + (c + 1) / 8 ≤ x ∧ 8 * (x - base) < c + 1 + (w - 1)
    · rw [if_pos h2]
    · rw [if_neg h2, if_pos (by omega), ← hr]
      congr 1
      apply byte_ext
      intro k hk
      rw [writeField_bit _ base (c + 1) _ _ _ hk, if_neg (by omega)]
  · rw [if_neg hin, if_neg (by omega), if_neg (by omega)]

/-! ## The bit write -/

theorem setMask_bit {o k : Nat} (ho : o < 8) (hk : k < 8) : (setMask o).getLsbD (7 - k) = decide (k = o) := by
  interval_cases o <;> interval_cases k <;> rfl

theorem clearMask_bit {o k : Nat} (ho : o < 8) (hk : k < 8) : (clearMask o).getLsbD (7 - k) = !decide (k = o) := by
  interval_cases o <;> interval_cases k <;> rfl

/-- `write_bit_raw` writes the byte a field of width 1 writes (R104, R105). -/
theorem maskedByte_eq_splice (x : Byte) (c : Nat) (b : Bool) {v : Word} (hv : v.getLsbD 0 = b) :
    (if b then x ||| setMask (c % 8) else x &&& clearMask (c % 8)) = spliceByte x (c / 8) c v 1 := by
  apply byte_ext
  intro k hk
  have ho : c % 8 < 8 := Nat.mod_lt c (by decide)
  have e : (c ≤ 8 * (c / 8) + k ∧ 8 * (c / 8) + k < c + 1) ↔ k = c % 8 := by omega
  rw [spliceByte_bit _ _ _ _ _ hk]
  cases b
  · simp only [Bool.false_eq_true, if_false, BitVec.getLsbD_and, clearMask_bit ho hk]
    by_cases h : k = c % 8
    · rw [if_pos (e.2 h)]; simpa [h, fieldBit] using hv
    · rw [if_neg (mt e.1 h)]; simp [h]
  · simp only [if_true, BitVec.getLsbD_or, setMask_bit ho hk]
    by_cases h : k = c % 8
    · rw [if_pos (e.2 h)]; simp [h, fieldBit, hv]
    · rw [if_neg (mt e.1 h)]; simp [h]

/-- `write_bit_raw(b)` is `write_field_raw` of a word whose bit 0 is b, at width 1. -/
theorem writeBitRaw_eq (s : State) (b : Bool) {v : Word} (hv : v.getLsbD 0 = b) :
    s.writeBitRaw b = s.writeFieldRaw v 1 := by
  have h := maskedByte_eq_splice (s.mem.read (s.w.base.toNat + s.w.cur.toNat / 8)) s.w.cur.toNat b hv
  have ht : touchedBytes s.w.cur.toNat 1 = 1 := by simp only [touchedBytes]; rw [if_neg (by omega)]; omega
  simp only [State.writeBitRaw, State.writeFieldRaw, Memory.writeField, ht, Memory.spliceFrom, h]

/-! ## The reads -/

/-- The accumulator after `n` more stream bits (R108). -/
theorem readBits_bit (m : Memory) (base n p : Nat) (acc : Word) {i : Nat} (hi : i < 64) :
    (readBits m base n p acc).getLsbD i = if i < n then sbit m base (p + (n - 1 - i)) else acc.getLsbD (i - n) := by
  induction n generalizing p acc with
  | zero => simp [readBits]
  | succ n ih =>
    simp only [readBits, ih]
    by_cases h : i < n
    · rw [if_pos h, if_pos (by omega)]
      congr 1; omega
    · rw [if_neg h]
      by_cases h' : i = n
      · subst h'
        rw [if_pos (by omega)]
        simp
      · rw [if_neg (by omega)]
        have e : i - n = (i - (n + 1)) + 1 := by omega
        rw [e]
        have : i - (n + 1) + 1 < 64 := by omega
        simp [this, BitVec.getLsbD_eq_getElem (show i - (n + 1) < 64 by omega)]

/-- The field `read_field_raw` answers (R108, R118). -/
theorem readField_bit (m : Memory) (base c w : Nat) {i : Nat} (hi : i < 64) :
    (readBits m base w c 0).getLsbD i = (decide (i < w) && sbit m base (c + (w - 1 - i))) := by
  rw [readBits_bit m base w c 0 hi]
  split <;> simp_all

theorem bitOfByte (x : Byte) (o : Nat) :
    ((x >>> o) &&& 1#8).setWidth 64 = if x.getLsbD o then (1 : Word) else 0 := by
  apply BitVec.eq_of_getLsbD_eq
  intro i hi
  cases h : x.getLsbD o with
  | false => cases i <;> simp [h]
  | true =>
    have ho : o < 8 := BitVec.lt_of_getLsbD h
    cases i <;> simp [h]; omega

/-- The bit `read_bit_raw` answers (R107). -/
theorem readBitRaw_value (s : State) :
    s.readBitRaw.1 = if sbit s.mem s.r.base.toNat s.r.cur.toNat then 1 else 0 := by
  exact bitOfByte _ _

end Sys2Proof.Machine
end

