-- ==== Sys2Proof/Laws/State.lean ====
section
/-! SUPPORT. What each shared state update leaves in each field, true by rfl, so that no proof unfolds an update. -/

namespace Sys2Proof.Machine

section answer
variable (s : State) (st : Status) (v : Word)
@[simp] theorem answer_w : (s.answer st v).w = s.w := rfl
@[simp] theorem answer_r : (s.answer st v).r = s.r := rfl
@[simp] theorem answer_mem : (s.answer st v).mem = s.mem := rfl
@[simp] theorem answer_relLog : (s.answer st v).relLog = s.relLog := rfl
@[simp] theorem answer_responses : (s.answer st v).responses = s.responses ++ [⟨st, v⟩] := rfl
@[simp] theorem answer_pending : (s.answer st v).pending = s.pending := rfl
@[simp] theorem answer_draws : (s.answer st v).draws = s.draws := rfl
@[simp] theorem answer_params : (s.answer st v).params = s.params := rfl
end answer

section advance
variable (s : State) (n : Nat)
@[simp] theorem advanceW_w : (s.advanceW n).w = { s.w with cur := s.w.cur + BitVec.ofNat 64 n } := rfl
@[simp] theorem advanceW_r : (s.advanceW n).r = s.r := rfl
@[simp] theorem advanceW_mem : (s.advanceW n).mem = s.mem := rfl
@[simp] theorem advanceW_relLog : (s.advanceW n).relLog = s.relLog := rfl
@[simp] theorem advanceW_responses : (s.advanceW n).responses = s.responses := rfl
@[simp] theorem advanceW_pending : (s.advanceW n).pending = s.pending := rfl
@[simp] theorem advanceW_draws : (s.advanceW n).draws = s.draws := rfl
@[simp] theorem advanceW_params : (s.advanceW n).params = s.params := rfl
@[simp] theorem advanceR_w : (s.advanceR n).w = s.w := rfl
@[simp] theorem advanceR_r : (s.advanceR n).r = { s.r with cur := s.r.cur + BitVec.ofNat 64 n } := rfl
@[simp] theorem advanceR_mem : (s.advanceR n).mem = s.mem := rfl
@[simp] theorem advanceR_relLog : (s.advanceR n).relLog = s.relLog := rfl
@[simp] theorem advanceR_responses : (s.advanceR n).responses = s.responses := rfl
@[simp] theorem advanceR_pending : (s.advanceR n).pending = s.pending := rfl
@[simp] theorem advanceR_draws : (s.advanceR n).draws = s.draws := rfl
@[simp] theorem advanceR_params : (s.advanceR n).params = s.params := rfl
end advance

section drawn
variable (s : State)
@[simp] theorem drawn_w : s.drawn.w = s.w := rfl
@[simp] theorem drawn_r : s.drawn.r = s.r := rfl
@[simp] theorem drawn_mem : s.drawn.mem = s.mem := rfl
@[simp] theorem drawn_relLog : s.drawn.relLog = s.relLog := rfl
@[simp] theorem drawn_responses : s.drawn.responses = s.responses := rfl
@[simp] theorem drawn_pending : s.drawn.pending = s.pending := rfl
@[simp] theorem drawn_draws : s.drawn.draws = s.draws + 1 := rfl
@[simp] theorem drawn_params : s.drawn.params = s.params := rfl
end drawn

section writes
variable (s : State) (v : Word) (n : Nat) (b : Bool)
@[simp] theorem writeFieldRaw_w : (s.writeFieldRaw v n).w = { s.w with cur := s.w.cur + BitVec.ofNat 64 n } := rfl
@[simp] theorem writeFieldRaw_r : (s.writeFieldRaw v n).r = s.r := rfl
@[simp] theorem writeFieldRaw_mem : (s.writeFieldRaw v n).mem = s.mem.writeField s.w.base.toNat s.w.cur.toNat v n := rfl
@[simp] theorem writeFieldRaw_relLog : (s.writeFieldRaw v n).relLog = s.relLog := rfl
@[simp] theorem writeFieldRaw_responses : (s.writeFieldRaw v n).responses = s.responses := rfl
@[simp] theorem writeFieldRaw_pending : (s.writeFieldRaw v n).pending = s.pending := rfl
@[simp] theorem writeFieldRaw_draws : (s.writeFieldRaw v n).draws = s.draws := rfl
@[simp] theorem writeFieldRaw_params : (s.writeFieldRaw v n).params = s.params := rfl
@[simp] theorem writeBitRaw_w : (s.writeBitRaw b).w = { s.w with cur := s.w.cur + 1#64 } := rfl
@[simp] theorem writeBitRaw_r : (s.writeBitRaw b).r = s.r := rfl
@[simp] theorem writeBitRaw_relLog : (s.writeBitRaw b).relLog = s.relLog := rfl
@[simp] theorem writeBitRaw_responses : (s.writeBitRaw b).responses = s.responses := rfl
@[simp] theorem writeBitRaw_pending : (s.writeBitRaw b).pending = s.pending := rfl
@[simp] theorem writeBitRaw_draws : (s.writeBitRaw b).draws = s.draws := rfl
@[simp] theorem writeBitRaw_params : (s.writeBitRaw b).params = s.params := rfl
end writes

section reads
variable (s : State) (n : Nat)
@[simp] theorem readBitRaw_state : s.readBitRaw.2 = s.advanceR 1 := rfl
@[simp] theorem readFieldRaw_state : (s.readFieldRaw n).2 = s.advanceR n := rfl
end reads

section growTo
variable (s : State) (nb len : Nat)
@[simp] theorem growTo_w : (s.growTo nb len).w = { s.w with base := BitVec.ofNat 64 nb, cap := bitCapacity len } := rfl
@[simp] theorem growTo_r : (s.growTo nb len).r = s.r := rfl
@[simp] theorem growTo_mem :
    (s.growTo nb len).mem = s.mem.relocate s.w.base.toNat (s.w.cap.toNat / 8) nb len s.draws := rfl
@[simp] theorem growTo_relLog : (s.growTo nb len).relLog = s.relLog := rfl
@[simp] theorem growTo_responses : (s.growTo nb len).responses = s.responses := rfl
@[simp] theorem growTo_pending : (s.growTo nb len).pending = s.pending := rfl
@[simp] theorem growTo_draws : (s.growTo nb len).draws = s.draws + 1 := rfl
@[simp] theorem growTo_params : (s.growTo nb len).params = s.params := rfl
end growTo

section bind
variable (s : State) (own : Ownership) (token base nbytes : Word) (nb : Nat)
@[simp] theorem bindW_w : (s.bindW own token base nbytes).w =
    { bound := true, variant := .fixed, own := own, token := token, base := base,
      cap := bitCapacity nbytes.toNat, cur := 0 } := rfl
@[simp] theorem bindW_r : (s.bindW own token base nbytes).r = s.r := rfl
@[simp] theorem bindW_mem : (s.bindW own token base nbytes).mem = s.mem := rfl
@[simp] theorem bindW_relLog : (s.bindW own token base nbytes).relLog = s.relLog := rfl
@[simp] theorem bindW_responses : (s.bindW own token base nbytes).responses = s.responses := rfl
@[simp] theorem bindW_pending : (s.bindW own token base nbytes).pending = s.pending := rfl
@[simp] theorem bindW_draws : (s.bindW own token base nbytes).draws = s.draws := rfl
@[simp] theorem bindW_params : (s.bindW own token base nbytes).params = s.params := rfl
@[simp] theorem bindR_w : (s.bindR own token base nbytes).w = s.w := rfl
@[simp] theorem bindR_r : (s.bindR own token base nbytes).r =
    { bound := true, own := own, token := token, base := base, cap := bitCapacity nbytes.toNat, cur := 0 } := rfl
@[simp] theorem bindR_mem : (s.bindR own token base nbytes).mem = s.mem := rfl
@[simp] theorem bindR_relLog : (s.bindR own token base nbytes).relLog = s.relLog := rfl
@[simp] theorem bindR_responses : (s.bindR own token base nbytes).responses = s.responses := rfl
@[simp] theorem bindR_pending : (s.bindR own token base nbytes).pending = s.pending := rfl
@[simp] theorem bindR_draws : (s.bindR own token base nbytes).draws = s.draws := rfl
@[simp] theorem bindR_params : (s.bindR own token base nbytes).params = s.params := rfl
@[simp] theorem allocAt_w : (s.allocAt nb).w =
    { bound := true, variant := .growable, own := .owned, token := Config.freeWord s.draws .wToken,
      base := BitVec.ofNat 64 nb, cap := bitCapacity s.params.initBytes, cur := 0 } := rfl
@[simp] theorem allocAt_r : (s.allocAt nb).r = s.r := rfl
@[simp] theorem allocAt_mem : (s.allocAt nb).mem = s.mem.forget nb s.params.initBytes s.draws := rfl
@[simp] theorem allocAt_relLog : (s.allocAt nb).relLog = s.relLog := rfl
@[simp] theorem allocAt_responses : (s.allocAt nb).responses = s.responses := rfl
@[simp] theorem allocAt_pending : (s.allocAt nb).pending = s.pending := rfl
@[simp] theorem allocAt_draws : (s.allocAt nb).draws = s.draws + 1 := rfl
@[simp] theorem allocAt_params : (s.allocAt nb).params = s.params := rfl
end bind

section unbind
variable (s : State)
@[simp] theorem disposeW_r : s.disposeW.r = s.r := by unfold State.disposeW; split <;> (try split) <;> rfl
@[simp] theorem disposeW_responses : s.disposeW.responses = s.responses := by
  unfold State.disposeW; split <;> (try split) <;> rfl
@[simp] theorem disposeW_pending : s.disposeW.pending = s.pending := by
  unfold State.disposeW; split <;> (try split) <;> rfl
@[simp] theorem disposeW_draws : s.disposeW.draws = s.draws := by unfold State.disposeW; split <;> (try split) <;> rfl
@[simp] theorem disposeW_params : s.disposeW.params = s.params := by
  unfold State.disposeW; split <;> (try split) <;> rfl
@[simp] theorem disposeR_w : s.disposeR.w = s.w := by unfold State.disposeR; split <;> rfl
@[simp] theorem disposeR_mem : s.disposeR.mem = s.mem := by unfold State.disposeR; split <;> rfl
@[simp] theorem disposeR_responses : s.disposeR.responses = s.responses := by unfold State.disposeR; split <;> rfl
@[simp] theorem disposeR_pending : s.disposeR.pending = s.pending := by unfold State.disposeR; split <;> rfl
@[simp] theorem disposeR_draws : s.disposeR.draws = s.draws := by unfold State.disposeR; split <;> rfl
@[simp] theorem disposeR_params : s.disposeR.params = s.params := by unfold State.disposeR; split <;> rfl

@[simp] theorem unbindW_w : s.unbindW.w = unboundW s.params s.draws := rfl
@[simp] theorem unbindW_r : s.unbindW.r = s.r := disposeW_r s
@[simp] theorem unbindW_mem : s.unbindW.mem = s.disposeW.mem := rfl
@[simp] theorem unbindW_relLog : s.unbindW.relLog = s.disposeW.relLog := rfl
@[simp] theorem unbindW_responses : s.unbindW.responses = s.responses := disposeW_responses s
@[simp] theorem unbindW_pending : s.unbindW.pending = s.pending := disposeW_pending s
@[simp] theorem unbindW_params : s.unbindW.params = s.params := disposeW_params s
@[simp] theorem unbindR_w : s.unbindR.w = s.w := disposeR_w s
@[simp] theorem unbindR_r : s.unbindR.r = unboundR s.params s.draws := rfl
@[simp] theorem unbindR_mem : s.unbindR.mem = s.mem := disposeR_mem s
@[simp] theorem unbindR_relLog : s.unbindR.relLog = s.disposeR.relLog := rfl
@[simp] theorem unbindR_responses : s.unbindR.responses = s.responses := disposeR_responses s
@[simp] theorem unbindR_pending : s.unbindR.pending = s.pending := disposeR_pending s
@[simp] theorem unbindR_params : s.unbindR.params = s.params := disposeR_params s
@[simp] theorem unboundW_bound (p : Params) (d : Nat) : (unboundW p d).bound = false := rfl
@[simp] theorem unboundR_bound (p : Params) (d : Nat) : (unboundR p d).bound = false := rfl
end unbind

section host
variable (s : State)
@[simp] theorem hostReset_w : s.hostReset.w = unboundW s.params s.draws := rfl
@[simp] theorem hostReset_r : s.hostReset.r = unboundR s.params s.draws := rfl
@[simp] theorem hostReset_mem : s.hostReset.mem = s.mem := rfl
@[simp] theorem hostReset_relLog : s.hostReset.relLog = s.relLog := rfl
@[simp] theorem hostReset_responses : s.hostReset.responses = s.responses := rfl
@[simp] theorem hostReset_pending : s.hostReset.pending = s.pending := rfl
@[simp] theorem hostReset_params : s.hostReset.params = s.params := rfl
@[simp] theorem withFetchWord_pending (nbits w : Nat) :
    (s.withFetchWord nbits w).pending = .command (Packet.ofTable nbits w) :: s.pending := rfl
end host

end Sys2Proof.Machine
end

