-- ==== Sys2Proof/Laws/Capacity.lean ====
section
/-! SUPPORT. The capacity check and growth: what `grow`, `ensureOrFail` and `checkOrFail` answer, and what growth does. -/

namespace Sys2Proof.Machine

/-! ## Numbers -/

theorem bitCapacity_toNat {n : Nat} (h : n ≤ maxBytes) : (bitCapacity n).toNat = 8 * n := by
  simp only [bitCapacity, BitVec.toNat_ofNat]
  simp only [maxBytes] at h
  exact Nat.mod_eq_of_lt (by omega)

theorem word_toNat_of_le {n aw : Nat} (haw : aw ≤ 64) (h : n < 2 ^ aw) : (BitVec.ofNat 64 n).toNat = n := by
  rw [BitVec.toNat_ofNat]
  exact Nat.mod_eq_of_lt (lt_of_lt_of_le h (Nat.pow_le_pow_right (by decide) haw))

theorem advance_toNat {cur cap : Word} {n : Nat} (h : cur.toNat + n ≤ cap.toNat) :
    (cur + BitVec.ofNat 64 n).toNat = cur.toNat + n := by
  have := cap.isLt
  rw [BitVec.toNat_add, BitVec.toNat_ofNat]
  omega

/-- The doubling loop (R112): the least number of doublings that covers the need, if the fuel lasts. -/
theorem doubleUntil_spec (fuel len need : Nat) :
    ∃ k, k ≤ fuel ∧ doubleUntil fuel len need = len * 2 ^ k ∧ (∀ j < k, 8 * (len * 2 ^ j) < need) ∧
      (k < fuel → need ≤ 8 * (len * 2 ^ k)) := by
  induction fuel generalizing len with
  | zero => exact ⟨0, by omega, by simp [doubleUntil], by omega, by omega⟩
  | succ fuel ih =>
    by_cases h : need ≤ 8 * len
    · exact ⟨0, by omega, by simp [doubleUntil, h], by omega, by simpa using h⟩
    · obtain ⟨k, hk, heq, hlow, hhigh⟩ := ih (2 * len)
      have two : ∀ j, 2 * len * 2 ^ j = len * 2 ^ (j + 1) := fun j => by ring
      refine ⟨k + 1, by omega, by simp [doubleUntil, h, heq, two], ?_, fun hlt => ?_⟩
      · intro j hj
        rcases j with _ | j
        · simpa using h
        · rw [← two]; exact hlow j (by omega)
      · rw [← two]; exact hhigh (by omega)

/-- The loop's result for a buffer of at least one byte and a need below 2^66. -/
theorem grownLength_spec {len need : Nat} (hlen : 1 ≤ len) (hneed : need ≤ 2 ^ 66) (hshort : 8 * len < need) :
    ∃ k, 1 ≤ k ∧ k < 64 ∧ grownLength len need = len * 2 ^ k ∧ need ≤ 8 * (len * 2 ^ k) ∧
      ∀ j, need ≤ 8 * (len * 2 ^ j) → k ≤ j := by
  obtain ⟨k, hk, heq, hlow, hhigh⟩ := doubleUntil_spec 64 len need
  have hbig : ∀ j, 2 ^ j ≤ len * 2 ^ j := fun j => Nat.le_mul_of_pos_left _ hlen
  have hk64 : k < 64 := by
    by_contra hc
    obtain rfl : k = 64 := by omega
    have := hlow 63 (by omega)
    have := hbig 63
    omega
  have hk1 : 1 ≤ k := by
    rcases k with _ | k
    · have := hhigh (by omega); simp at this; omega
    · omega
  exact ⟨k, hk1, hk64, heq, hhigh hk64, fun j hj => by
    by_contra hc
    have := hlow j (by omega)
    omega⟩

/-- The allocator's draw lies where R112 step 4 and R182 put it. -/
theorem placeInHeap_range (p : Params) {len : Nat} (d : Nat) (h : len ≤ p.heapBytes) :
    p.heapBase ≤ placeInHeap p len d ∧ placeInHeap p len d + len ≤ p.heapBase + p.heapBytes := by
  have := Nat.mod_lt (Config.freeOffset d) (show 0 < p.heapBytes - len + 1 by omega)
  simp only [placeInHeap]
  omega

/-! ## `heapCovers` -/

theorem heapCovers_iff (s : State) (n : Nat) :
    heapCovers s n = true ↔ ∃ k < 64, s.w.cur.toNat + n ≤ 8 * (s.w.cap.toNat / 8 * 2 ^ k) ∧
      s.w.cap.toNat / 8 * 2 ^ k ≤ s.params.heapBytes := by
  simp only [heapCovers, List.any_eq_true, List.mem_range, decide_eq_true_eq]

/-! ## The invariant of a Growable sink -/

/-- What R24 says of a bound Growable sink, in the form the proofs use. -/
theorem growable_facts {s : State} (inv : s.Inv) (hb : s.w.bound = true) (hg : s.w.variant = .growable) :
    1 ≤ s.w.cap.toNat / 8 ∧ s.w.cap.toNat / 8 ≤ s.params.heapBytes ∧
      s.params.heapBase + s.params.heapBytes ≤ 2 ^ s.params.aw := by
  obtain ⟨-, ⟨k, hk⟩, hlo, hhi⟩ := inv.growable hb hg
  obtain ⟨-, -, hi, -, -, htop⟩ := inv.params
  have : 1 ≤ s.params.initBytes * 2 ^ k := Nat.mul_pos hi (Nat.two_pow_pos k)
  refine ⟨by omega, by omega, htop⟩

/-! ## Growth -/

/-- Everything growth can answer on a bound Growable sink (R112). -/
theorem grow_cases {s : State} {n : Nat} (inv : s.Inv) (hb : s.w.bound = true) (hg : s.w.variant = .growable)
    (hn : n ≤ 2 ^ 64) :
    (s.w.cur.toNat + n ≤ s.w.cap.toNat ∧ heapCovers s n = true ∧ s.grow n = .ready s) ∨
    (s.w.cap.toNat < s.w.cur.toNat + n ∧ heapCovers s n = false ∧ s.grow n = .short .growthExhausted) ∨
    (s.w.cap.toNat < s.w.cur.toNat + n ∧ heapCovers s n = true ∧ ∃ k, 1 ≤ k ∧
      s.w.cur.toNat + n ≤ 8 * (s.w.cap.toNat / 8 * 2 ^ k) ∧
      (∀ j, s.w.cur.toNat + n ≤ 8 * (s.w.cap.toNat / 8 * 2 ^ j) → k ≤ j) ∧
      s.w.cap.toNat / 8 * 2 ^ k ≤ s.params.heapBytes ∧
      s.grow n = .ready (s.growTo (placeInHeap s.params (s.w.cap.toNat / 8 * 2 ^ k) s.draws)
        (s.w.cap.toNat / 8 * 2 ^ k))) := by
  obtain ⟨hlen, hheap, htop⟩ := growable_facts inv hb hg
  have hcap := inv.wCap
  have hreg := inv.wRegion hb
  have hcur := s.w.cur.isLt
  by_cases hfit : s.w.cur.toNat + n ≤ s.w.cap.toNat
  · refine .inl ⟨hfit, (heapCovers_iff s n).2 ⟨0, by omega, ?_, ?_⟩, ?_⟩
    · simp only [pow_zero, mul_one]; omega
    · simpa using hheap
    · simp [State.grow, hfit]
  · obtain ⟨k, hk1, hk64, heq, hcov, hmin⟩ :=
      grownLength_spec (need := s.w.cur.toNat + n) hlen (by omega) (by omega)
    by_cases hfull : s.params.heapBytes < s.w.cap.toNat / 8 * 2 ^ k
    · refine .inr (.inl ⟨by omega, ?_, ?_⟩)
      · rw [Bool.eq_false_iff]
        intro hc
        obtain ⟨j, -, hj, hjh⟩ := (heapCovers_iff s n).1 hc
        have : 2 ^ k ≤ 2 ^ j := Nat.pow_le_pow_right (by decide) (hmin j hj)
        have : s.w.cap.toNat / 8 * 2 ^ k ≤ s.w.cap.toNat / 8 * 2 ^ j := Nat.mul_le_mul_left _ this
        omega
      · simp [State.grow, hfit, heq, hfull]
    · refine .inr (.inr ⟨by omega, (heapCovers_iff s n).2 ⟨k, hk64, hcov, by omega⟩, k, hk1, hcov, hmin, by omega, ?_⟩)
      have hno : ¬(s.params.heapBytes < s.w.cap.toNat / 8 * 2 ^ k ∨
          8 * (s.w.cap.toNat / 8 * 2 ^ k) < s.w.cur.toNat + n) := by omega
      simp only [State.grow, heq, if_neg hfit, if_neg hno]
      rw [if_pos ⟨hreg, htop⟩]

/-- What `grow` can answer on any state: it goes on unchanged, or grown within HEAP_BYTES to a capacity that covers the
need, or it fails GrowthExhausted, or it faults. -/
theorem grow_answers (s : State) (n : Nat) :
    (s.w.cur.toNat + n ≤ s.w.cap.toNat ∧ s.grow n = .ready s) ∨
    (∃ k, s.w.cur.toNat + n ≤ 8 * (s.w.cap.toNat / 8 * 2 ^ k) ∧ s.w.cap.toNat / 8 * 2 ^ k ≤ s.params.heapBytes ∧
      s.grow n = .ready (s.growTo (placeInHeap s.params (s.w.cap.toNat / 8 * 2 ^ k) s.draws)
        (s.w.cap.toNat / 8 * 2 ^ k))) ∨
    s.grow n = .short .growthExhausted ∨ s.grow n = .broken .noSuchAddress := by
  obtain ⟨k, -, heq, -, -⟩ := doubleUntil_spec 64 (s.w.cap.toNat / 8) (s.w.cur.toNat + n)
  by_cases hfit : s.w.cur.toNat + n ≤ s.w.cap.toNat
  · exact .inl ⟨hfit, by simp [State.grow, hfit]⟩
  · simp only [State.grow, if_neg hfit, grownLength, heq]
    split
    · exact .inr (.inr (.inl rfl))
    · split
      · exact .inr (.inl ⟨k, by omega, by omega, rfl⟩)
      · exact .inr (.inr (.inr rfl))

/-- The net effect of a growth event (R112 steps 4 to 6). -/
theorem growTo_grownBy {s : State} {k : Nat} (inv : s.Inv) (hb : s.w.bound = true) (hg : s.w.variant = .growable)
    (hk : s.w.cap.toNat / 8 * 2 ^ k ≤ s.params.heapBytes) :
    GrownBy s (s.growTo (placeInHeap s.params (s.w.cap.toNat / 8 * 2 ^ k) s.draws) (s.w.cap.toNat / 8 * 2 ^ k)) k := by
  obtain ⟨hlen, hheap, htop⟩ := growable_facts inv hb hg
  obtain ⟨-, haw, -, -, hmax, -⟩ := inv.params
  obtain ⟨hlo, hhi⟩ := placeInHeap_range s.params s.draws hk
  have hnew : 1 ≤ s.w.cap.toNat / 8 * 2 ^ k := Nat.mul_pos hlen (Nat.two_pow_pos k)
  have hle : s.w.cap.toNat / 8 ≤ s.w.cap.toNat / 8 * 2 ^ k := Nat.le_mul_of_pos_right _ (Nat.two_pow_pos k)
  generalize hN : s.w.cap.toNat / 8 * 2 ^ k = new at *
  generalize hP : placeInHeap s.params new s.draws = nb at *
  have hbase : (BitVec.ofNat 64 nb).toNat = nb := word_toNat_of_le haw (by omega)
  have hc : (bitCapacity new).toNat = 8 * new := bitCapacity_toNat (by omega)
  have hc8 : 8 * new / 8 = new := by omega
  refine ⟨rfl, by simp [hc, hN], by simp [hbase, hlo], by simp only [growTo_w, hbase, hc]; omega, ?_, ?_⟩
  · intro j hj
    simp only [growTo_w, growTo_mem, hbase]
    exact read_relocate_kept _ hj
  · intro a hold hnw
    simp only [inRegion, growTo_w, hbase, hc] at hnw
    simp only [growTo_mem]
    exact read_relocate_outside _ hle (by omega) (by omega)

/-! ## The checks of the write and read commands -/

theorem guardAccess_ready {s : State} {base cur cap : Word} {n : Nat} (hreg : base.toNat + cap.toNat / 8 ≤ 2 ^ s.params.aw)
    (hcap : cap.toNat % 8 = 0) (hfit : cur.toNat + n ≤ cap.toNat) : s.guardAccess base cur n = .ready s := by
  have : s.mayTouch base cur n := by show base.toNat + (cur.toNat + n + 7) / 8 ≤ _; omega
  simp only [State.guardAccess, if_pos this]

/-- `check_or_fail` on a bound reader (R206, R109). -/
theorem checkOrFail_eq {s : State} {n : Nat} (inv : s.Inv) (hb : s.r.bound = true) :
    s.checkOrFail n = if s.r.cur.toNat + n ≤ s.r.cap.toNat then .ready s else .short .insufficientData := by
  by_cases hfit : s.r.cur.toNat + n ≤ s.r.cap.toNat
  · simp only [State.checkOrFail, fits, if_pos hfit]
    exact guardAccess_ready (inv.rRegion hb) inv.rCap hfit
  · simp only [State.checkOrFail, fits, if_neg hfit]

/-- `ensure_or_fail` on a bound Fixed sink (R205, R110). -/
theorem ensureOrFail_fixed {s : State} {n : Nat} (inv : s.Inv) (hb : s.w.bound = true) (hv : s.w.variant = .fixed) :
    s.ensureOrFail n = if s.w.cur.toNat + n ≤ s.w.cap.toNat then .ready s else .short .insufficientSpace := by
  by_cases hfit : s.w.cur.toNat + n ≤ s.w.cap.toNat
  · simp only [State.ensureOrFail, hv, fits, if_pos hfit]
    exact guardAccess_ready (inv.wRegion hb) inv.wCap hfit
  · simp only [State.ensureOrFail, hv, fits, if_neg hfit]

/-- What `Grow` leaves when it does not fail, on a bound Growable sink. -/
theorem grow_ready {s : State} {n : Nat} (inv : s.Inv) (hb : s.w.bound = true) (hg : s.w.variant = .growable)
    (hn : n ≤ 2 ^ 64) (hcov : heapCovers s n = true) :
    ∃ g, s.grow n = .ready g ∧ Grown s g n ∧ g.w.cur = s.w.cur ∧ s.w.cur.toNat + n ≤ g.w.cap.toNat ∧
      g.w.cap.toNat % 8 = 0 ∧ g.w.base.toNat + g.w.cap.toNat / 8 ≤ 2 ^ g.params.aw := by
  obtain ⟨hlen, hheap, htop⟩ := growable_facts inv hb hg
  rcases grow_cases inv hb hg hn with ⟨hfit, -, h⟩ | ⟨-, hno, -⟩ | ⟨hshort, -, k, hk1, hk, hmin, hkh, h⟩
  · exact ⟨s, h, .inl ⟨hfit, rfl⟩, rfl, hfit, inv.wCap, inv.wRegion hb⟩
  · simp [hno] at hcov
  · have hgb := growTo_grownBy inv hb hg hkh
    have hlenk := hgb.length
    refine ⟨_, h, .inr ⟨hshort, k, hk1, by omega, fun j _ hj => hmin j hj, hgb⟩, rfl, by omega, by omega, ?_⟩
    have := hgb.below
    simp only [growTo_params]
    omega

/-- `ensure_or_fail` on a bound Growable sink (R111, R208). -/
theorem ensureOrFail_growable {s : State} {n : Nat} (inv : s.Inv) (hb : s.w.bound = true)
    (hg : s.w.variant = .growable) (hn : n ≤ 2 ^ 64) :
    (heapCovers s n = false ∧ s.ensureOrFail n = .short .growthExhausted) ∨
    (heapCovers s n = true ∧ ∃ g, s.ensureOrFail n = .ready g ∧ s.grow n = .ready g ∧ Grown s g n ∧
      g.w.cur = s.w.cur ∧ s.w.cur.toNat + n ≤ g.w.cap.toNat) := by
  cases hcov : heapCovers s n
  · refine .inl ⟨rfl, ?_⟩
    rcases grow_cases inv hb hg hn with ⟨-, h, -⟩ | ⟨-, -, h⟩ | ⟨-, h, -⟩
    · simp [hcov] at h
    · simp [State.ensureOrFail, hg, h]
    · simp [hcov] at h
  · obtain ⟨g, hgrow, hG, hcur, hfit, hcap, hreg⟩ := grow_ready inv hb hg hn hcov
    refine .inr ⟨rfl, g, ?_, hgrow, hG, hcur, hfit⟩
    simp only [State.ensureOrFail, hg, hgrow]
    exact guardAccess_ready hreg hcap (by rw [hcur]; exact hfit)

/-- What `guardAccess` answers. -/
theorem guardAccess_answers (s : State) (base cur : Word) (n : Nat) :
    (s.mayTouch base cur n ∧ s.guardAccess base cur n = .ready s) ∨ s.guardAccess base cur n = .broken .noSuchAddress := by
  by_cases h : s.mayTouch base cur n
  · exact .inl ⟨h, if_pos h⟩
  · exact .inr (if_neg h)

/-- A field write has the net effect of R105 (R58, R56). -/
theorem writeField_stored (m : Memory) (base c : Nat) (v : Word) {w : Nat} (hw : 1 ≤ w) :
    FieldStored m (m.writeField base c v w) base c w (fieldBit v w) where
  inside i hi := by
    rw [sbit_writeField, if_pos (by omega), Nat.add_sub_cancel_left]
  outside a k hk hout := by
    rw [writeField_bit m base c v w a hk]
    split
    · rename_i h
      exact absurd ⟨by omega, by omega⟩ (hout (8 * (a - base) + k - c) (by omega))
    · rfl
  bytes a h := writeField_byte m base c v hw h

end Sys2Proof.Machine
end

