-- ==== Sys2Proof/Laws/Commands.lean ====
section
/-! SUPPORT. What each command can do when it answers a next state: it failed and appended one failing response, or it passed
its checks and had the effect its rule gives. One inversion lemma per shared check and per command. -/

namespace Sys2Proof.Machine

/-- The next state of a command that failed (R204); it answers IllegalCommand only if its packet is not `legal`. -/
def Failed (legal : Bool) (s t : State) : Prop :=
  ∃ st, st ≠ .ok ∧ (st = .illegalCommand → legal = false) ∧ t = s.answer st 0

/-- The packet checks of R201, steps 2 and 3, for a decoded command. -/
def argsLegal : Instr → Bool
  | .wSeek origin _ | .rSeek origin _ => originLegal origin
  | .wBit bit => bitLegal bit
  | .wUint width _ | .wInt width _ | .wInts width _ | .rUint width | .rInt width | .rInts width => widthLegal width
  | .wBorrow _ _ | .wOwn _ _ _ | .wAlloc | .wUnbind | .wTell | .wEnsure _ | .wData | .wSize
  | .rBorrow _ _ | .rOwn _ _ _ | .rUnbind | .rTell | .rBit => true

/-! ## The shared checks -/

theorem next_inj {s t : State} : (Host.Outcome.next s : Outcome) = .next t ↔ s = t :=
  ⟨fun h => by injection h, fun h => by rw [h]⟩

theorem respond_next {s t : State} {v : Word} (h : s.respond v = .next t) : t = s.answer .ok v := (next_inj.1 h).symm

theorem requireLegal_next {s t : State} {legal : Bool} {k : Outcome} (h : s.requireLegal legal k = .next t) :
    (legal = false ∧ t = s.answer .illegalCommand 0) ∨ (legal = true ∧ k = .next t) := by
  cases legal
  · exact .inl ⟨rfl, (next_inj.1 h).symm⟩
  · exact .inr ⟨rfl, h⟩

theorem requireBound_next {s t : State} {b want : Bool} {k : Outcome} (h : s.requireBound b want k = .next t) :
    (b ≠ want ∧ t = s.answer .badBindState 0) ∨ (b = want ∧ k = .next t) := by
  by_cases hb : b = want
  · exact .inr ⟨hb, by simpa only [State.requireBound, if_pos hb] using h⟩
  · exact .inl ⟨hb, by simp only [State.requireBound, if_neg hb] at h; exact (next_inj.1 h).symm⟩

theorem requireRegion_next {s t : State} {base nbytes : Word} {k : Outcome}
    (h : s.requireRegion base nbytes k = .next t) :
    (regionOk s.params base nbytes = false ∧ t = s.answer .badRegion 0) ∨
      (regionOk s.params base nbytes = true ∧ k = .next t) := by
  cases hr : regionOk s.params base nbytes
  · simp only [State.requireRegion, hr] at h
    exact .inl ⟨rfl, (next_inj.1 h).symm⟩
  · simp only [State.requireRegion, hr] at h
    exact .inr ⟨rfl, h⟩

theorem settle_next {s t : State} {c : Checked} {k : State → Outcome} (h : s.settle c k = .next t) :
    (∃ st, c = .short st ∧ t = s.answer st 0) ∨ ∃ g, c = .ready g ∧ k g = .next t := by
  cases c with
  | ready g => exact .inr ⟨g, rfl, h⟩
  | short st => exact .inl ⟨st, rfl, (next_inj.1 h).symm⟩
  | broken f => simp [State.settle] at h

theorem enterW_next {s t : State} {legal : Bool} {k : Outcome} (h : s.enterW legal k = .next t) :
    Failed legal s t ∨ (legal = true ∧ s.w.bound = true ∧ k = .next t) := by
  rcases requireLegal_next h with ⟨hl, h⟩ | ⟨hl, h⟩
  · exact .inl ⟨_, by decide, fun _ => hl, h⟩
  · rcases requireBound_next h with ⟨-, h⟩ | ⟨hb, h⟩
    · exact .inl ⟨_, by decide, (by intro e; cases e), h⟩
    · exact .inr ⟨hl, hb, h⟩

theorem enterR_next {s t : State} {legal : Bool} {k : Outcome} (h : s.enterR legal k = .next t) :
    Failed legal s t ∨ (legal = true ∧ s.r.bound = true ∧ k = .next t) := by
  rcases requireLegal_next h with ⟨hl, h⟩ | ⟨hl, h⟩
  · exact .inl ⟨_, by decide, fun _ => hl, h⟩
  · rcases requireBound_next h with ⟨-, h⟩ | ⟨hb, h⟩
    · exact .inl ⟨_, by decide, (by intro e; cases e), h⟩
    · exact .inr ⟨hl, hb, h⟩

/-- A command whose checks pass goes on. -/
theorem enterW_pass {s : State} (hb : s.w.bound = true) (k : Outcome) : s.enterW true k = k := by
  simp [State.enterW, State.requireLegal, State.requireBound, hb]

theorem enterR_pass {s : State} (hb : s.r.bound = true) (k : Outcome) : s.enterR true k = k := by
  simp [State.enterR, State.requireLegal, State.requireBound, hb]

theorem enterW_unbound {s : State} (hb : s.w.bound = false) (k : Outcome) :
    s.enterW true k = .next (s.answer .badBindState 0) := by
  simp [State.enterW, State.requireLegal, State.requireBound, hb, State.fail]

theorem enterR_unbound {s : State} (hb : s.r.bound = false) (k : Outcome) :
    s.enterR true k = .next (s.answer .badBindState 0) := by
  simp [State.enterR, State.requireLegal, State.requireBound, hb, State.fail]

theorem enterW_illegal (s : State) (k : Outcome) : s.enterW false k = .next (s.answer .illegalCommand 0) := rfl
theorem enterR_illegal (s : State) (k : Outcome) : s.enterR false k = .next (s.answer .illegalCommand 0) := rfl

@[simp] theorem settle_ready (s g : State) (k : State → Outcome) : s.settle (.ready g) k = k g := rfl
@[simp] theorem settle_short (s : State) (st : Status) (k : State → Outcome) :
    s.settle (.short st) k = .next (s.answer st 0) := rfl

theorem widthLegal_iff {width : Nat} : widthLegal width = true ↔ 1 ≤ width ∧ width ≤ 64 := by
  simp [widthLegal, Bool.and_eq_true]

theorem bitLegal_iff {bit : Word} : bitLegal bit = true ↔ bit.toNat ≤ 1 := by simp [bitLegal]

theorem regionOk_iff {s : State} {base nbytes : Word} :
    regionOk s.params base nbytes = true ↔ regionFits s base nbytes := by
  simp only [regionOk, Bool.and_eq_true, decide_eq_true_eq, and_assoc]
  exact Iff.rfl

/-! ## What a capacity check makes ready, on any state -/

/-- `ensure_or_fail` is ready on the state itself, or, on a Growable sink, on the state grown to a capacity that covers
the field within HEAP_BYTES. -/
theorem ensureOrFail_answers (s : State) (n : Nat) :
    (s.w.cur.toNat + n ≤ s.w.cap.toNat ∧ s.mayTouch s.w.base s.w.cur n ∧ s.ensureOrFail n = .ready s) ∨
    (∃ k, s.w.variant = .growable ∧ s.w.cur.toNat + n ≤ 8 * (s.w.cap.toNat / 8 * 2 ^ k) ∧
      s.w.cap.toNat / 8 * 2 ^ k ≤ s.params.heapBytes ∧
      s.grow n = .ready (s.growTo (placeInHeap s.params (s.w.cap.toNat / 8 * 2 ^ k) s.draws)
        (s.w.cap.toNat / 8 * 2 ^ k)) ∧
      s.ensureOrFail n = .ready (s.growTo (placeInHeap s.params (s.w.cap.toNat / 8 * 2 ^ k) s.draws)
        (s.w.cap.toNat / 8 * 2 ^ k))) ∨
    (∃ st, st ≠ .ok ∧ st ≠ .illegalCommand ∧ s.ensureOrFail n = .short st) ∨
    s.ensureOrFail n = .broken .noSuchAddress := by
  cases hv : s.w.variant with
  | fixed =>
    simp only [State.ensureOrFail, hv]
    by_cases hf : fits s.w.cur s.w.cap n
    · simp only [if_pos hf]
      rcases guardAccess_answers s s.w.base s.w.cur n with ⟨hm, h⟩ | h
      · exact .inl ⟨hf, hm, h⟩
      · exact .inr (.inr (.inr h))
    · simp only [if_neg hf]
      exact .inr (.inr (.inl ⟨_, by decide, by decide, rfl⟩))
  | growable =>
    simp only [State.ensureOrFail, hv]
    rcases grow_answers s n with ⟨hf, h⟩ | ⟨k, hc, hh, h⟩ | h | h
    · simp only [h]
      rcases guardAccess_answers s s.w.base s.w.cur n with ⟨hm, h⟩ | h
      · exact .inl ⟨hf, hm, h⟩
      · exact .inr (.inr (.inr h))
    · simp only [h]
      rcases guardAccess_answers (s.growTo (placeInHeap s.params (s.w.cap.toNat / 8 * 2 ^ k) s.draws)
        (s.w.cap.toNat / 8 * 2 ^ k)) (s.growTo (placeInHeap s.params (s.w.cap.toNat / 8 * 2 ^ k) s.draws)
        (s.w.cap.toNat / 8 * 2 ^ k)).w.base (s.growTo (placeInHeap s.params (s.w.cap.toNat / 8 * 2 ^ k) s.draws)
        (s.w.cap.toNat / 8 * 2 ^ k)).w.cur n with ⟨-, h'⟩ | h'
      · exact .inr (.inl ⟨k, trivial, hc, hh, rfl, h'⟩)
      · exact .inr (.inr (.inr h'))
    · rw [h]
      exact .inr (.inr (.inl ⟨_, by decide, by decide, rfl⟩))
    · rw [h]
      exact .inr (.inr (.inr rfl))

theorem ensureOrFail_short {s : State} {n : Nat} {st : Status} (h : s.ensureOrFail n = .short st) :
    st ≠ .ok ∧ st ≠ .illegalCommand := by
  rcases ensureOrFail_answers s n with ⟨-, -, h'⟩ | ⟨k, -, -, -, -, h'⟩ | ⟨st', hst, hst', h'⟩ | h' <;> rw [h] at h'
  · cases h'
  · cases h'
  · cases h'; exact ⟨hst, hst'⟩
  · cases h'

/-- What growth leaves as it was (R112 step 6: "W.cur, variant, own unchanged"). -/
structure GrowthFrame (s g : State) : Prop where
  bound : g.w.bound = s.w.bound
  variant : g.w.variant = s.w.variant
  own : g.w.own = s.w.own
  token : g.w.token = s.w.token
  cur : g.w.cur = s.w.cur
  r : g.r = s.r
  relLog : g.relLog = s.relLog
  responses : g.responses = s.responses
  pending : g.pending = s.pending
  params : g.params = s.params

theorem growTo_frame (s : State) (nb len : Nat) : GrowthFrame s (s.growTo nb len) := by constructor <;> rfl

theorem grow_frame {s g : State} {n : Nat} (h : s.grow n = .ready g) : GrowthFrame s g := by
  rcases grow_answers s n with ⟨-, h'⟩ | ⟨k, -, -, h'⟩ | h' | h' <;> rw [h] at h'
  · cases h'; constructor <;> rfl
  · cases h'; exact growTo_frame s _ _
  · cases h'
  · cases h'

theorem ensureOrFail_frame {s g : State} {n : Nat} (h : s.ensureOrFail n = .ready g) : GrowthFrame s g := by
  rcases ensureOrFail_answers s n with ⟨-, -, h'⟩ | ⟨k, -, -, -, -, h'⟩ | ⟨st, -, -, h'⟩ | h' <;> rw [h] at h'
  · cases h'; constructor <;> rfl
  · cases h'; exact growTo_frame s _ _
  · cases h'
  · cases h'

theorem checkOrFail_answers (s : State) (n : Nat) :
    (s.r.cur.toNat + n ≤ s.r.cap.toNat ∧ s.checkOrFail n = .ready s) ∨
    s.checkOrFail n = .short .insufficientData ∨ s.checkOrFail n = .broken .noSuchAddress := by
  simp only [State.checkOrFail]
  split
  · rename_i hf
    rcases guardAccess_answers s s.r.base s.r.cur n with ⟨-, h⟩ | h
    · exact .inl ⟨hf, h⟩
    · exact .inr (.inr h)
  · exact .inr (.inl rfl)

/-! ## The commands

`Failed s t`, or the effect. -/

variable {s t : State}

theorem wSeek_next {origin : Origin} {offset : Word} (h : execWSeek origin offset s = .next t) :
    Failed (originLegal origin) s t ∨ (originLegal origin = true ∧ s.w.bound = true ∧
      t = ({ s with w := { s.w with cur := seekTarget origin offset s.w.cur s.w.cap } } : State).answer .ok 0) := by
  rcases enterW_next h with h | ⟨hl, hb, h⟩
  · exact .inl h
  · exact .inr ⟨hl, hb, respond_next h⟩

theorem wTell_next (h : execWTell s = .next t) : Failed true s t ∨ (s.w.bound = true ∧ t = s.answer .ok s.w.cur) := by
  rcases enterW_next h with h | ⟨-, hb, h⟩
  · exact .inl h
  · exact .inr ⟨hb, respond_next h⟩

theorem wData_next (h : execWData s = .next t) : Failed true s t ∨ (s.w.bound = true ∧ t = s.answer .ok s.w.base) := by
  rcases enterW_next h with h | ⟨-, hb, h⟩
  · exact .inl h
  · exact .inr ⟨hb, respond_next h⟩

theorem wSize_next (h : execWSize s = .next t) :
    Failed true s t ∨ (s.w.bound = true ∧ t = s.answer .ok (BitVec.ofNat 64 (s.w.cap.toNat / 8))) := by
  rcases enterW_next h with h | ⟨-, hb, h⟩
  · exact .inl h
  · exact .inr ⟨hb, respond_next h⟩

theorem wEnsure_next {bits : Word} (h : execWEnsure bits s = .next t) :
    Failed true s t ∨ (s.w.bound = true ∧ s.w.variant = .fixed ∧
      t = s.answer .ok (if fits s.w.cur s.w.cap bits.toNat then 1 else 0)) ∨
    (s.w.bound = true ∧ s.w.variant = .growable ∧ ∃ g, s.grow bits.toNat = .ready g ∧ t = g.answer .ok 1) := by
  rcases enterW_next h with h | ⟨-, hb, h⟩
  · exact .inl h
  · cases hv : s.w.variant with
    | fixed => simp only [hv] at h; exact .inr (.inl ⟨hb, rfl, respond_next h⟩)
    | growable =>
      simp only [hv] at h
      rcases settle_next h with ⟨st, hst, h⟩ | ⟨g, hg, h⟩
      · obtain rfl : st = .growthExhausted := by
          rcases grow_answers s bits.toNat with ⟨-, h'⟩ | ⟨k, -, -, h'⟩ | h' | h' <;> rw [hst] at h' <;> cases h'
          rfl
        exact .inl ⟨_, by decide, (by intro e; cases e), h⟩
      · exact .inr (.inr ⟨hb, rfl, g, hg, respond_next h⟩)

/-- The shape of the four write commands. -/
theorem write_next {legal : Bool} {n : Nat} {k : State → State}
    (h : s.enterW legal (s.settle (s.ensureOrFail n) fun g => (k g).respond 0) = .next t) :
    Failed legal s t ∨ (legal = true ∧ s.w.bound = true ∧ ∃ g, s.ensureOrFail n = .ready g ∧ t = (k g).answer .ok 0) := by
  rcases enterW_next h with h | ⟨hl, hb, h⟩
  · exact .inl h
  · rcases settle_next h with ⟨st, hst, h⟩ | ⟨g, hg, h⟩
    · exact .inl ⟨st, (ensureOrFail_short hst).1, fun e => absurd e (ensureOrFail_short hst).2, h⟩
    · exact .inr ⟨hl, hb, g, hg, respond_next h⟩

theorem wBit_next {bit : Word} (h : execWBit bit s = .next t) :
    Failed (bitLegal bit) s t ∨ (bitLegal bit = true ∧ s.w.bound = true ∧
      ∃ g, s.ensureOrFail 1 = .ready g ∧ t = (g.writeFieldRaw bit 1).answer .ok 0) := by
  rcases write_next (k := fun g => g.writeBitRaw (bit.getLsbD 0)) h with h | ⟨hl, hb, g, hg, h⟩
  · exact .inl h
  · exact .inr ⟨hl, hb, g, hg, by rw [h, writeBitRaw_eq g _ rfl]⟩

theorem wUint_next {width : Nat} {value : Word} (h : execWUint width value s = .next t) :
    Failed (widthLegal width) s t ∨ (widthLegal width = true ∧ s.w.bound = true ∧
      ∃ g, s.ensureOrFail width = .ready g ∧ t = (g.writeFieldRaw value width).answer .ok 0) :=
  write_next (k := fun g => g.writeFieldRaw value width) h

theorem wInt_next {width : Nat} {value : Word} (h : execWInt width value s = .next t) :
    Failed (widthLegal width) s t ∨ (widthLegal width = true ∧ s.w.bound = true ∧
      ∃ g, s.ensureOrFail width = .ready g ∧ t = (g.writeFieldRaw value width).answer .ok 0) :=
  write_next (k := fun g => g.writeFieldRaw value width) h

theorem wInts_next {width : Nat} {value : Word} (h : execWInts width value s = .next t) :
    Failed (widthLegal width) s t ∨ (widthLegal width = true ∧ s.w.bound = true ∧ ∃ g, s.ensureOrFail width = .ready g ∧
      t = ((g.writeBitRaw (signBit value)).writeFieldRaw (magnitude value) (width - 1)).answer .ok 0) :=
  write_next (k := fun g => (g.writeBitRaw (signBit value)).writeFieldRaw (magnitude value) (width - 1)) h

/-- The shape of the four read commands. -/
theorem read_next {legal : Bool} {n : Nat} {k : State → State} {v : State → Word}
    (h : s.enterR legal (s.settle (s.checkOrFail n) fun g => (k g).respond (v g)) = .next t) :
    Failed legal s t ∨ (legal = true ∧ s.r.bound = true ∧ s.r.cur.toNat + n ≤ s.r.cap.toNat ∧
      t = (k s).answer .ok (v s)) := by
  rcases enterR_next h with h | ⟨hl, hb, h⟩
  · exact .inl h
  · rcases checkOrFail_answers s n with ⟨hf, hc⟩ | hc | hc <;> rw [hc] at h
    · exact .inr ⟨hl, hb, hf, respond_next h⟩
    · exact .inl ⟨_, by decide, (by intro e; cases e), (next_inj.1 h).symm⟩
    · simp [State.settle] at h

theorem rSeek_next {origin : Origin} {offset : Word} (h : execRSeek origin offset s = .next t) :
    Failed (originLegal origin) s t ∨ (originLegal origin = true ∧ s.r.bound = true ∧
      t = ({ s with r := { s.r with cur := seekTarget origin offset s.r.cur s.r.cap } } : State).answer .ok 0) := by
  rcases enterR_next h with h | ⟨hl, hb, h⟩
  · exact .inl h
  · exact .inr ⟨hl, hb, respond_next h⟩

theorem rTell_next (h : execRTell s = .next t) : Failed true s t ∨ (s.r.bound = true ∧ t = s.answer .ok s.r.cur) := by
  rcases enterR_next h with h | ⟨-, hb, h⟩
  · exact .inl h
  · exact .inr ⟨hb, respond_next h⟩

theorem rBit_next (h : execRBit s = .next t) :
    Failed true s t ∨ (s.r.bound = true ∧ s.r.cur.toNat + 1 ≤ s.r.cap.toNat ∧
      t = (s.advanceR 1).answer .ok s.readBitRaw.1) := by
  rcases read_next (k := fun g => g.readBitRaw.2) (v := fun g => g.readBitRaw.1) h with h | ⟨-, hb, hf, h⟩
  · exact .inl h
  · exact .inr ⟨hb, hf, h⟩

theorem rUint_next {width : Nat} (h : execRUint width s = .next t) :
    Failed (widthLegal width) s t ∨ (widthLegal width = true ∧ s.r.bound = true ∧ s.r.cur.toNat + width ≤ s.r.cap.toNat ∧
      t = (s.advanceR width).answer .ok (s.readFieldRaw width).1) :=
  read_next (k := fun g => (g.readFieldRaw width).2) (v := fun g => (g.readFieldRaw width).1) h

/-- Advancing by one bit and then by the rest of the field is advancing by the field. -/
theorem advanceR_split {width : Nat} (h : 1 ≤ width) : (s.advanceR 1).advanceR (width - 1) = s.advanceR width := by
  simp only [State.advanceR, BitVec.add_assoc, ← BitVec.ofNat_add]
  rw [show 1 + (width - 1) = width by omega]

theorem rInt_next {width : Nat} (h : execRInt width s = .next t) :
    Failed (widthLegal width) s t ∨ (widthLegal width = true ∧ s.r.bound = true ∧ s.r.cur.toNat + width ≤ s.r.cap.toNat ∧
      t = (s.advanceR width).answer .ok
        (twosComplementResult s.readBitRaw.1 ((s.advanceR 1).readFieldRaw (width - 1)).1 width)) := by
  rcases read_next (k := fun g => (g.readBitRaw.2.readFieldRaw (width - 1)).2)
    (v := fun g => twosComplementResult g.readBitRaw.1 (g.readBitRaw.2.readFieldRaw (width - 1)).1 width) h with
    h | ⟨hl, hb, hf, h⟩
  · exact .inl h
  · refine .inr ⟨hl, hb, hf, ?_⟩
    simpa only [readBitRaw_state, readFieldRaw_state, advanceR_split (widthLegal_iff.1 hl).1] using h

theorem rInts_next {width : Nat} (h : execRInts width s = .next t) :
    Failed (widthLegal width) s t ∨ (widthLegal width = true ∧ s.r.bound = true ∧ s.r.cur.toNat + width ≤ s.r.cap.toNat ∧
      t = (s.advanceR width).answer .ok
        (signMagnitudeResult s.readBitRaw.1 ((s.advanceR 1).readFieldRaw (width - 1)).1)) := by
  rcases read_next (k := fun g => (g.readBitRaw.2.readFieldRaw (width - 1)).2)
    (v := fun g => signMagnitudeResult g.readBitRaw.1 (g.readBitRaw.2.readFieldRaw (width - 1)).1) h with
    h | ⟨hl, hb, hf, h⟩
  · exact .inl h
  · refine .inr ⟨hl, hb, hf, ?_⟩
    simpa only [readBitRaw_state, readFieldRaw_state, advanceR_split (widthLegal_iff.1 hl).1] using h

theorem wBorrow_next {base nbytes : Word} (h : execWBorrow base nbytes s = .next t) :
    Failed true s t ∨ (s.w.bound = false ∧ regionFits s base nbytes ∧
      t = (s.bindW .borrowed (Config.freeWord s.draws .wToken) base nbytes).drawn.answer .ok 0) := by
  rcases requireBound_next h with ⟨-, h⟩ | ⟨hb, h⟩
  · exact .inl ⟨_, by decide, (by intro e; cases e), h⟩
  · rcases requireRegion_next h with ⟨-, h⟩ | ⟨hr, h⟩
    · exact .inl ⟨_, by decide, (by intro e; cases e), h⟩
    · exact .inr ⟨hb, regionOk_iff.1 hr, respond_next h⟩

theorem wOwn_next {base nbytes token : Word} (h : execWOwn base nbytes token s = .next t) :
    Failed true s t ∨ (s.w.bound = false ∧ regionFits s base nbytes ∧
      t = (s.bindW .owned token base nbytes).answer .ok 0) := by
  rcases requireBound_next h with ⟨-, h⟩ | ⟨hb, h⟩
  · exact .inl ⟨_, by decide, (by intro e; cases e), h⟩
  · rcases requireRegion_next h with ⟨-, h⟩ | ⟨hr, h⟩
    · exact .inl ⟨_, by decide, (by intro e; cases e), h⟩
    · exact .inr ⟨hb, regionOk_iff.1 hr, respond_next h⟩

theorem rBorrow_next {base nbytes : Word} (h : execRBorrow base nbytes s = .next t) :
    Failed true s t ∨ (s.r.bound = false ∧ regionFits s base nbytes ∧
      t = (s.bindR .borrowed (Config.freeWord s.draws .rToken) base nbytes).drawn.answer .ok 0) := by
  rcases requireBound_next h with ⟨-, h⟩ | ⟨hb, h⟩
  · exact .inl ⟨_, by decide, (by intro e; cases e), h⟩
  · rcases requireRegion_next h with ⟨-, h⟩ | ⟨hr, h⟩
    · exact .inl ⟨_, by decide, (by intro e; cases e), h⟩
    · exact .inr ⟨hb, regionOk_iff.1 hr, respond_next h⟩

theorem rOwn_next {base nbytes token : Word} (h : execROwn base nbytes token s = .next t) :
    Failed true s t ∨ (s.r.bound = false ∧ regionFits s base nbytes ∧
      t = (s.bindR .owned token base nbytes).answer .ok 0) := by
  rcases requireBound_next h with ⟨-, h⟩ | ⟨hb, h⟩
  · exact .inl ⟨_, by decide, (by intro e; cases e), h⟩
  · rcases requireRegion_next h with ⟨-, h⟩ | ⟨hr, h⟩
    · exact .inl ⟨_, by decide, (by intro e; cases e), h⟩
    · exact .inr ⟨hb, regionOk_iff.1 hr, respond_next h⟩

theorem wAlloc_next (h : execWAlloc s = .next t) :
    Failed true s t ∨ (s.w.bound = false ∧
      t = (s.allocAt (placeInHeap s.params s.params.initBytes s.draws)).answer .ok 0) := by
  rcases requireBound_next h with ⟨-, h⟩ | ⟨hb, h⟩
  · exact .inl ⟨_, by decide, (by intro e; cases e), h⟩
  · exact .inr ⟨hb, respond_next h⟩

theorem wUnbind_next (h : execWUnbind s = .next t) :
    Failed true s t ∨ (s.w.bound = true ∧ t = s.unbindW.answer .ok 0) := by
  rcases requireBound_next h with ⟨-, h⟩ | ⟨hb, h⟩
  · exact .inl ⟨_, by decide, (by intro e; cases e), h⟩
  · exact .inr ⟨hb, respond_next h⟩

theorem rUnbind_next (h : execRUnbind s = .next t) :
    Failed true s t ∨ (s.r.bound = true ∧ t = s.unbindR.answer .ok 0) := by
  rcases requireBound_next h with ⟨-, h⟩ | ⟨hb, h⟩
  · exact .inl ⟨_, by decide, (by intro e; cases e), h⟩
  · exact .inr ⟨hb, respond_next h⟩

/-! ## The step -/

/-- Everything a step can be, by the host's next action. -/
theorem step_cases (s : State) :
    (s.pending = [] ∧ step s = .next s) ∨
    (∃ p rest, s.pending = .command p :: rest ∧ step s = runPacket p { s with pending := rest }) ∨
    (∃ a v rest, s.pending = .write a v :: rest ∧ step s = ({ s with pending := rest } : State).hostWrite a v) ∨
    (∃ rest, s.pending = .reset :: rest ∧ step s = .next ({ s with pending := rest } : State).hostReset) := by
  unfold step
  split
  · exact .inl ⟨‹_›, rfl⟩
  · rename_i p rest h; exact .inr (.inl ⟨p, rest, h, rfl⟩)
  · rename_i a v rest h; exact .inr (.inr (.inl ⟨a, v, rest, h, rfl⟩))
  · rename_i rest h; exact .inr (.inr (.inr ⟨rest, h, rfl⟩))

/-- What answering a packet can be. -/
theorem runPacket_next {p : Packet} (h : runPacket p s = .next t) :
    (∃ e, decode p = .error e ∧ t = s.answer .illegalCommand 0) ∨ ∃ i, decode p = .ok i ∧ exec i s = .next t := by
  unfold runPacket at h
  split at h
  · rename_i i hi; exact .inr ⟨i, hi, h⟩
  · rename_i e he; exact .inl ⟨e, he, (next_inj.1 h).symm⟩

theorem hostWrite_next {a : Nat} {v : Byte} (h : s.hostWrite a v = .next t) :
    a < 2 ^ s.params.aw ∧ ¬inHeap s.params a ∧ t = { s with mem := s.mem.write a v } := by
  unfold State.hostWrite at h
  split at h
  · cases h
  · split at h
    · cases h
    · exact ⟨by omega, ‹_›, (next_inj.1 h).symm⟩

end Sys2Proof.Machine
end

