-- ==== Sys2Proof/Laws/Encoding.lean ====
section
/-! SUPPORT. The command word: its fields as bits and as numbers, what the formats and the decoder answer, and the packet
checks of R203. -/

namespace Sys2Proof.Machine

/-! ## The fields -/

/-- The fields of a composed command word (R81). -/
theorem fields_cmd (u : BitVec 1) (op : BitVec 4) (arg : BitVec 8) :
    zField (commandWord u op arg) = 0#3 ∧ unitField (commandWord u op arg) = u ∧
    opField (commandWord u op arg) = op ∧ argField (commandWord u op arg) = arg := by
  have hu := u.isLt
  refine ⟨?_, ?_, ?_, ?_⟩ <;> apply BitVec.eq_of_getLsbD_eq <;> intro i hi <;>
    simp only [zField, unitField, opField, argField, commandWord, BitVec.getLsbD_extractLsb',
      BitVec.getLsbD_append]
  · have : i < 3 := hi
    interval_cases i <;> simp
  · have : i < 1 := hi
    interval_cases i <;> simp
  · have : i < 4 := hi
    interval_cases i <;> simp
  · have : i < 8 := hi
    interval_cases i <;> simp

/-- A word whose Z field is zero is composed of its fields. -/
theorem word_of_fields (c : BitVec 16) (hz : zField c = 0#3) :
    c = commandWord (unitField c) (opField c) (argField c) := by
  apply BitVec.eq_of_getLsbD_eq
  intro i hi
  have hz' : ∀ j < 3, c.getLsbD (12 + j) = false := fun j hj => by
    have := congrArg (fun x => x.getLsbD j) hz
    simpa [zField, BitVec.getLsbD_extractLsb', hj] using this
  have h12 := hz' 0 (by omega)
  have h13 := hz' 1 (by omega)
  have h14 := hz' 2 (by omega)
  simp only [commandWord, BitVec.getLsbD_append, unitField, opField, argField, BitVec.getLsbD_extractLsb']
  interval_cases i <;> simp_all

/-- The fields as bits and by their weights. -/
theorem fields_nat (c : BitVec 16) :
    (zField c = 0#3 ↔ zOf c = 0) ∧ (unitField c).toNat = unitOf c ∧ (opField c).toNat = opOf c ∧ (argField c).toNat = argOf c := by
  have := c.isLt
  refine ⟨?_, ?_, ?_, ?_⟩
  · rw [← BitVec.toNat_inj]; simp [zField, zOf, BitVec.extractLsb'_toNat, Nat.shiftRight_eq_div_pow]
  · simp [unitField, BitVec.extractLsb'_toNat, Nat.shiftRight_eq_div_pow]; omega
  · simp [opField, BitVec.extractLsb'_toNat, Nat.shiftRight_eq_div_pow]
  · simp [argField, BitVec.extractLsb'_toNat, Nat.shiftRight_eq_div_pow]

/-- The decoder by the fields' weights. -/
theorem decode_eq (p : Packet) : decode p =
    if zOf p.cmd ≠ 0 then .error .zNotZero
    else if unitOf p.cmd = 0 then decodeWrite (opOf p.cmd) (argField p.cmd) p
    else decodeRead (opOf p.cmd) (argField p.cmd) p := by
  obtain ⟨hz, hu, ho, -⟩ := fields_nat p.cmd
  have hu' : (unitField p.cmd = 0#1 ↔ unitOf p.cmd = 0) := by
    rw [← BitVec.toNat_inj, hu]; simp
  unfold decode
  simp only [ne_eq, hz, hu', ho]

/-! ## The formats (R82) -/

theorem formatN_err (arg : BitVec 8) (i : Instr) : (∃ e, formatN arg i = .error e) ↔ arg.toNat ≠ 0 := by
  unfold formatN; split
  · simp_all
  · rename_i h; simp [← BitVec.toNat_inj] at h ⊢; exact h

theorem formatF_err (arg : BitVec 8) (k) : (∃ e, formatF arg k = .error e) ↔ 128 ≤ arg.toNat := by
  unfold formatF; split <;> simp_all 

theorem formatS_err (arg : BitVec 8) (k) : (∃ e, formatS arg k = .error e) ↔ 4 ≤ arg.toNat := by
  unfold formatS; split <;> simp_all

theorem formatN_ok {arg : BitVec 8} {i j : Instr} : formatN arg i = .ok j ↔ arg = 0#8 ∧ i = j := by
  unfold formatN; split <;> simp_all

theorem formatF_ok {arg : BitVec 8} {k j} : formatF arg k = .ok j ↔ arg.toNat < 128 ∧ k arg.toNat = j := by
  unfold formatF; split <;> simp_all

theorem formatS_ok {arg : BitVec 8} {k j} :
    formatS arg k = .ok j ↔ arg.toNat < 4 ∧ k (Origin.ofCode arg.toNat) = j := by
  unfold formatS; split <;> simp_all

/-- A word with these fields. -/
theorem cmd_eq_commandWord {p : Packet} (hz : zOf p.cmd = 0) {u : BitVec 1} {o : BitVec 4}
    (hu : unitOf p.cmd = u.toNat) (ho : opOf p.cmd = o.toNat) :
    p.cmd = commandWord u o (argField p.cmd) := by
  obtain ⟨h1, h2, h3, -⟩ := fields_nat p.cmd
  have e1 : unitField p.cmd = u := BitVec.eq_of_toNat_eq (h2.trans hu)
  have e2 : opField p.cmd = o := BitVec.eq_of_toNat_eq (h3.trans ho)
  rw [← e1, ← e2]; exact word_of_fields _ (h1.2 hz)

/-! ## The decoder -/

/-- The decoder rejects exactly the words R88 lists. -/
theorem decode_error_iff (p : Packet) : (∃ e, decode p = .error e) ↔ reservedWord p.cmd := by
  obtain ⟨-, -, -, ha⟩ := fields_nat p.cmd
  rw [decode_eq]
  have hu : unitOf p.cmd = 0 ∨ unitOf p.cmd = 1 := by have := p.cmd.isLt; simp only [unitOf]; omega
  have ho : opOf p.cmd < 16 := Nat.mod_lt _ (by decide)
  simp only [reservedWord, argReserved]
  generalize opOf p.cmd = o at *
  generalize unitOf p.cmd = u at *
  rw [← ha]
  split
  · simp_all
  · rename_i hz
    rcases hu with rfl | rfl
    · simp only [if_true, decodeWrite]
      interval_cases o <;> simp_all [formatN_err, formatF_err, formatS_err]
    · simp only [one_ne_zero, if_false, decodeRead]
      interval_cases o <;> simp_all [formatN_err, formatF_err, formatS_err]

theorem decode_ok_cases {p : Packet} {i : Instr} (h : decode p = .ok i) : ¬ reservedWord p.cmd := by
  intro hr; obtain ⟨e, he⟩ := (decode_error_iff p).2 hr; rw [h] at he; cases he

/-! ## The rows of the opcode map (R84) -/

/-- Masking with a run of high ones keeps the weights above. -/
theorem and_highMask (c : BitVec 16) {k : Nat} :
    (c &&& (BitVec.allOnes 16 <<< k)).toNat = c.toNat / 2 ^ k * 2 ^ k := by
  have : c &&& (BitVec.allOnes 16 <<< k) = (c >>> k) <<< k := by
    apply BitVec.eq_of_getLsbD_eq; intro i hi
    simp only [BitVec.getLsbD_and, BitVec.getLsbD_shiftLeft, BitVec.getLsbD_allOnes, BitVec.getLsbD_ushiftRight]
    by_cases h : i < k
    · simp [h]
    · simp [h, hi, show i - k < 16 by omega, show k + (i - k) = i by omega]
  rw [this, BitVec.toNat_shiftLeft, BitVec.toNat_ushiftRight, Nat.shiftLeft_eq, Nat.shiftRight_eq_div_pow]
  apply Nat.mod_eq_of_lt
  exact lt_of_le_of_lt (Nat.div_mul_le_self _ _) c.isLt

/-- The arguments a row of R84 takes: below 128 in format F, below 4 in format S, 0 in format N (R82). -/
def argBound (mask : BitVec 16) : Nat := if mask = 0xFF80 then 128 else if mask = 0xFFFC then 4 else 1

/-- A row selects a word by its fields. -/
theorem selects_iff {row : OpcodeRow} (hr : row ∈ opcodeRows) (c : BitVec 16) :
    row.selects c = true ↔
      zOf c = 0 ∧ unitOf c = unitOf row.pattern ∧ opOf c = opOf row.pattern ∧ argOf c < argBound row.mask := by
  have shape : ∀ row ∈ opcodeRows, (zOf row.pattern = 0 ∧ argOf row.pattern = 0) ∧
      ∃ k ≤ 8, row.mask = BitVec.allOnes 16 <<< k ∧ argBound row.mask = 2 ^ k := by decide
  obtain ⟨⟨hz, ha⟩, k, hk, hm, hb⟩ := shape row hr
  have hc := c.isLt
  have hp := row.pattern.isLt
  simp only [OpcodeRow.selects, beq_iff_eq]
  rw [hb, hm, ← BitVec.toNat_inj, and_highMask c]
  simp only [zOf, argOf, unitOf, opOf] at *
  generalize c.toNat = n at *
  generalize row.pattern.toNat = p at *
  interval_cases k <;> omega


/-! ## The packet checks (R201 steps 1 to 3) -/

/-- A decoded packet is illegal exactly when its command's argument or operand is (R203). -/
theorem illegal_iff {p : Packet} {i : Instr} (h : decode p = .ok i) : illegalPacket p ↔ argsLegal i = false := by
  have hnr := decode_ok_cases h
  obtain ⟨-, -, -, ha⟩ := fields_nat p.cmd
  have hu : unitOf p.cmd = 0 ∨ unitOf p.cmd = 1 := by have := p.cmd.isLt; simp only [unitOf]; omega
  have ho : opOf p.cmd < 16 := Nat.mod_lt _ (by decide)
  have hc : p.cmd = 0x0800#16 ↔ unitOf p.cmd = 0 ∧ zOf p.cmd = 0 ∧ opOf p.cmd = 8 ∧ argOf p.cmd = 0 := by
    rw [← BitVec.toNat_inj]; have := p.cmd.isLt; simp only [unitOf, zOf, opOf, argOf]; simp; omega
  rw [decode_eq] at h
  split at h
  · cases h
  rename_i hz
  have hz : zOf p.cmd = 0 := by simpa using hz
  simp only [illegalPacket, hnr, widthIllegal, originIllegal, false_or, hc, hz]
  have oc : ∀ n < 4, (originLegal (Origin.ofCode n) = false ↔ n = 3) := by decide
  rw [← ha]
  clear hc ha hnr
  generalize opOf p.cmd = o at *
  generalize unitOf p.cmd = u at *
  rcases hu with rfl | rfl
  · simp only [if_true, decodeWrite] at h
    interval_cases o <;> simp only [formatN_ok, formatF_ok, formatS_ok, reduceCtorEq] at h <;>
      obtain ⟨h1, rfl⟩ := h <;> simp [argsLegal, h1, oc, widthLegal, bitLegal] <;> omega
  · simp only [one_ne_zero, if_false, decodeRead] at h
    interval_cases o <;> simp only [formatN_ok, formatF_ok, formatS_ok, reduceCtorEq] at h <;>
      obtain ⟨h1, rfl⟩ := h <;> simp [argsLegal, h1, oc, widthLegal, bitLegal] <;> omega

/-- A command whose packet is illegal is answered IllegalCommand in every state (R203). -/
theorem exec_legal (i : Instr) (s : State) (h : argsLegal i = false) :
    exec i s = .next (s.answer .illegalCommand 0) := by
  cases i <;> simp only [argsLegal, reduceCtorEq] at h <;> 
    simp [exec, execWSeek, execWBit, execWUint, execWInt, execWInts, execRSeek, execRUint, execRInt, execRInts, h,
      enterW_illegal, enterR_illegal]

end Sys2Proof.Machine
end

