-- ==== Sys2Proof/Laws/Invariant.lean ====
section
/-! SUPPORT. The invariant of R24 under each shared operation: binding, growth, the cursor's advance, field writes, the
response, and a unit becoming unspecified. -/

namespace Sys2Proof.Machine

variable {s : State}

theorem inv_answer (inv : s.Inv) (st : Status) (v : Word) : (s.answer st v).Inv :=
  ⟨inv.params, inv.memory, inv.listed, inv.wBase, inv.rBase, inv.wCap, inv.rCap, inv.wRegion, inv.rRegion, inv.growable⟩

theorem inv_pending (inv : s.Inv) (rest : List HostAction) : ({ s with pending := rest } : State).Inv :=
  ⟨inv.params, inv.memory, inv.listed, inv.wBase, inv.rBase, inv.wCap, inv.rCap, inv.wRegion, inv.rRegion, inv.growable⟩

theorem inv_drawn (inv : s.Inv) : s.drawn.Inv :=
  ⟨inv.params, inv.memory, inv.listed, inv.wBase, inv.rBase, inv.wCap, inv.rCap, inv.wRegion, inv.rRegion, inv.growable⟩

theorem inv_release (inv : s.Inv) (token base cap : Word) : (s.release token base cap).Inv :=
  ⟨inv.params, inv.memory, inv.listed, inv.wBase, inv.rBase, inv.wCap, inv.rCap, inv.wRegion, inv.rRegion, inv.growable⟩

/-- The cursors are free of the invariant (R24, R130: "no range validation"). -/
theorem inv_cursorW (inv : s.Inv) (c : Word) : ({ s with w := { s.w with cur := c } } : State).Inv :=
  ⟨inv.params, inv.memory, inv.listed, inv.wBase, inv.rBase, inv.wCap, inv.rCap, inv.wRegion, inv.rRegion, inv.growable⟩

theorem inv_cursorR (inv : s.Inv) (c : Word) : ({ s with r := { s.r with cur := c } } : State).Inv :=
  ⟨inv.params, inv.memory, inv.listed, inv.wBase, inv.rBase, inv.wCap, inv.rCap, inv.wRegion, inv.rRegion, inv.growable⟩

/-- A change of `Mem` that keeps its form and lists only addresses that exist. -/
theorem inv_mem (inv : s.Inv) {m : Memory} (hw : m.wf) (hl : listedBelow m (2 ^ s.params.aw)) :
    ({ s with mem := m } : State).Inv :=
  ⟨inv.params, hw, hl, inv.wBase, inv.rBase, inv.wCap, inv.rCap, inv.wRegion, inv.rRegion, inv.growable⟩

theorem inv_writeFieldRaw (inv : s.Inv) {n : Nat} (v : Word) (h : s.mayTouch s.w.base s.w.cur n) :
    (s.writeFieldRaw v n).Inv :=
  inv_cursorW (inv_mem inv (wf_writeField inv.memory ..) (listedBelow_writeField inv.listed h)) _

theorem freeBase_lt (p : Params) (hp : p.aw ≤ 64) (d : Nat) (slot : Slot) : (freeBase p d slot).toNat < 2 ^ p.aw := by
  have h : (Config.freeWord d slot).toNat % 2 ^ p.aw < 2 ^ p.aw := Nat.mod_lt _ (Nat.two_pow_pos _)
  rw [freeBase, word_toNat_of_le hp h]
  exact h

theorem freeCap_mod (d : Nat) (slot : Slot) : (freeCap d slot).toNat % 8 = 0 := by
  have := (Config.freeWord d slot).isLt
  simp only [freeCap, BitVec.toNat_ofNat]
  omega

theorem inv_unboundW (inv : s.Inv) (d : Nat) : ({ s with w := unboundW s.params d } : State).Inv where
  params := inv.params
  memory := inv.memory
  listed := inv.listed
  wBase := freeBase_lt _ inv.params.2.1 _ _
  rBase := inv.rBase
  wCap := freeCap_mod _ _
  rCap := inv.rCap
  wRegion h := by simp at h
  rRegion := inv.rRegion
  growable h := by simp at h

theorem inv_unboundR (inv : s.Inv) (d : Nat) : ({ s with r := unboundR s.params d } : State).Inv where
  params := inv.params
  memory := inv.memory
  listed := inv.listed
  wBase := inv.wBase
  rBase := freeBase_lt _ inv.params.2.1 _ _
  wCap := inv.wCap
  rCap := freeCap_mod _ _
  wRegion := inv.wRegion
  rRegion h := by simp at h
  growable := inv.growable

/-- Binding to a region that passes `RegionOK` (R188). -/
theorem inv_bindW (inv : s.Inv) {base nbytes : Word} (own : Ownership) (token : Word) (h : regionFits s base nbytes) :
    (s.bindW own token base nbytes).Inv := by
  obtain ⟨hn, hb, hr⟩ := h
  have hc : (bitCapacity nbytes.toNat).toNat = 8 * nbytes.toNat := bitCapacity_toNat hn
  exact { params := inv.params, memory := inv.memory, listed := inv.listed, wBase := hb, rBase := inv.rBase,
          wCap := by simp [hc], rCap := inv.rCap,
          wRegion := fun _ => by simp only [bindW_w, bindW_params, hc]; omega
          rRegion := inv.rRegion
          growable := fun _ hv => by simp at hv }

theorem inv_bindR (inv : s.Inv) {base nbytes : Word} (own : Ownership) (token : Word) (h : regionFits s base nbytes) :
    (s.bindR own token base nbytes).Inv := by
  obtain ⟨hn, hb, hr⟩ := h
  have hc : (bitCapacity nbytes.toNat).toNat = 8 * nbytes.toNat := bitCapacity_toNat hn
  exact { params := inv.params, memory := inv.memory, listed := inv.listed, wBase := inv.wBase, rBase := hb,
          wCap := inv.wCap, rCap := by simp [hc]
          wRegion := inv.wRegion
          rRegion := fun _ => by simp only [bindR_r, bindR_params, hc]; omega
          growable := inv.growable }

/-- Self-allocation at an address of the heap region (R182). -/
theorem inv_allocAt (inv : s.Inv) {nb : Nat} (hlo : s.params.heapBase ≤ nb)
    (hhi : nb + s.params.initBytes ≤ s.params.heapBase + s.params.heapBytes) : (s.allocAt nb).Inv := by
  obtain ⟨-, haw, hi, hih, hmax, htop⟩ := inv.params
  have hb : (BitVec.ofNat 64 nb).toNat = nb := word_toNat_of_le haw (by omega)
  have hc : (bitCapacity s.params.initBytes).toNat = 8 * s.params.initBytes := bitCapacity_toNat (by omega)
  have hc8 : 8 * s.params.initBytes / 8 = s.params.initBytes := by omega
  exact { params := inv.params
          memory := wf_forget inv.memory _ _ _
          listed := listedBelow_forget inv.listed _ _ _
          wBase := by simp only [allocAt_w, allocAt_params, hb]; omega
          rBase := inv.rBase
          wCap := by simp [hc]
          rCap := inv.rCap
          wRegion := fun _ => by simp only [allocAt_w, allocAt_params, hb, hc, hc8]; omega
          rRegion := inv.rRegion
          growable := fun _ _ => by
            simp only [allocAt_w, allocAt_params, hb, hc, hc8]
            exact ⟨trivial, ⟨0, by simp⟩, hlo, hhi⟩ }

/-- Growth of a bound Growable sink within the heap region (R112). -/
theorem inv_growTo (inv : s.Inv) (hb : s.w.bound = true) (hg : s.w.variant = .growable) {k : Nat}
    (hk : s.w.cap.toNat / 8 * 2 ^ k ≤ s.params.heapBytes) :
    (s.growTo (placeInHeap s.params (s.w.cap.toNat / 8 * 2 ^ k) s.draws) (s.w.cap.toNat / 8 * 2 ^ k)).Inv := by
  obtain ⟨hlen, hheap, htop⟩ := growable_facts inv hb hg
  obtain ⟨hown, ⟨j, hj⟩, -, -⟩ := inv.growable hb hg
  obtain ⟨-, haw, -, -, hmax, -⟩ := inv.params
  obtain ⟨hlo, hhi⟩ := placeInHeap_range s.params s.draws hk
  have hle : s.w.cap.toNat / 8 ≤ s.w.cap.toNat / 8 * 2 ^ k := Nat.le_mul_of_pos_right _ (Nat.two_pow_pos k)
  have hpow : s.w.cap.toNat / 8 * 2 ^ k = s.params.initBytes * 2 ^ (j + k) := by rw [hj, pow_add, mul_assoc]
  generalize s.w.cap.toNat / 8 * 2 ^ k = new at *
  generalize placeInHeap s.params new s.draws = nb at *
  have hbase : (BitVec.ofNat 64 nb).toNat = nb := word_toNat_of_le haw (by omega)
  have hc : (bitCapacity new).toNat = 8 * new := bitCapacity_toNat (by omega)
  have hc8 : 8 * new / 8 = new := by omega
  exact { params := inv.params
          memory := wf_relocate inv.memory ..
          listed := listedBelow_relocate inv.listed (by simp only [growTo_params]; omega)
          wBase := by simp only [growTo_w, growTo_params, hbase]; omega
          rBase := inv.rBase
          wCap := by simp [hc]
          rCap := inv.rCap
          wRegion := fun _ => by simp only [growTo_w, growTo_params, hbase, hc, hc8]; omega
          rRegion := inv.rRegion
          growable := fun _ _ => by
            simp only [growTo_w, growTo_params, hbase, hc, hc8]
            exact ⟨hown, ⟨j + k, hpow⟩, hlo, hhi⟩ }

/-- The state a growth makes ready. -/
theorem grow_inv {g : State} {n : Nat} (inv : s.Inv) (hb : s.w.bound = true) (hv : s.w.variant = .growable)
    (h : s.grow n = .ready g) : g.Inv := by
  rcases grow_answers s n with ⟨-, h'⟩ | ⟨k, -, hk, h'⟩ | h' | h' <;> rw [h] at h'
  · cases h'; exact inv
  · cases h'; exact inv_growTo inv hb hv hk
  · cases h'
  · cases h'

/-- The state a write command's check makes ready: the invariant holds, and the field lies in the buffer. -/
theorem ensureOrFail_inv {g : State} {n : Nat} (inv : s.Inv) (hb : s.w.bound = true) (h : s.ensureOrFail n = .ready g) :
    g.Inv ∧ g.w.cur.toNat + n ≤ g.w.cap.toNat := by
  rcases ensureOrFail_answers s n with ⟨hf, -, h'⟩ | ⟨k, hv, hc, hk, -, h'⟩ | ⟨st, -, -, h'⟩ | h' <;> rw [h] at h'
  · cases h'; exact ⟨inv, hf⟩
  · cases h'
    have hgb := growTo_grownBy inv hb hv hk
    refine ⟨inv_growTo inv hb hv hk, ?_⟩
    have := hgb.length
    simp only [growTo_w] at this ⊢
    omega
  · cases h'
  · cases h'

/-- Within the buffer every byte exists. -/
theorem mayTouch_of_fits {g : State} {n : Nat} (inv : g.Inv) (hb : g.w.bound = true)
    (hf : g.w.cur.toNat + n ≤ g.w.cap.toNat) : g.mayTouch g.w.base g.w.cur n := by
  have := inv.wRegion hb
  have := inv.wCap
  show g.w.base.toNat + (g.w.cur.toNat + n + 7) / 8 ≤ 2 ^ g.params.aw
  omega

end Sys2Proof.Machine
end

