-- ==== Sys2Proof/Laws/PerInstr.lean ====
section
/-! SUPPORT. Per-instruction families. `EncodedRow`: the command word the encoder writes for a well-formed command is selected
by the row of R84 that carries the command's mnemonic. -/

namespace Sys2Proof.Laws.EncodedRow

open Sys2Proof.Machine

/-- The row of R84 with the command's mnemonic selects the encoded word. -/
def Statement (i : Instr) : Prop :=
  i.wellFormed = true → ∃ row ∈ opcodeRows, row.mnemonic = i.mnemonic ∧ row.selects (encode i).cmd = true

/-- A composed word of a row: the fields of the row's pattern, and an argument the row takes. -/
theorem of_fields {i : Instr} {row : OpcodeRow} {u : BitVec 1} {op : BitVec 4} {arg : BitVec 8} (hr : row ∈ opcodeRows)
    (hm : row.mnemonic = i.mnemonic) (he : (encode i).cmd = commandWord u op arg) (hu : u.toNat = unitOf row.pattern)
    (ho : op.toNat = opOf row.pattern) (ha : arg.toNat < argBound row.mask) :
    ∃ row ∈ opcodeRows, row.mnemonic = i.mnemonic ∧ row.selects (encode i).cmd = true := by
  refine ⟨row, hr, hm, (selects_iff hr _).2 ?_⟩
  obtain ⟨fz, fu, fo, fa⟩ := fields_cmd u op arg
  obtain ⟨hz, hu', ho', ha'⟩ := fields_nat (commandWord u op arg)
  rw [he]
  exact ⟨hz.1 fz, by rw [← hu', fu, hu], by rw [← ho', fo, ho], by rw [← ha', fa]; exact ha⟩

theorem width_arg {width : Nat} (h : widthEncodable width = true) : (BitVec.ofNat 8 width).toNat < 128 := by
  simp only [widthEncodable, decide_eq_true_eq] at h
  rw [BitVec.toNat_ofNat]
  omega

theorem origin_arg (origin : Origin) : (BitVec.ofNat 8 origin.code).toNat < 4 := by cases origin <;> decide

theorem wBorrow (a b : Word) : Statement (.wBorrow a b) := fun _ =>
  of_fields (row := ⟨"W.BORROW", 0x0100, 0xFFFF⟩) (by decide) rfl rfl rfl rfl (by decide)

theorem wOwn (a b c : Word) : Statement (.wOwn a b c) := fun _ =>
  of_fields (row := ⟨"W.OWN", 0x0200, 0xFFFF⟩) (by decide) rfl rfl rfl rfl (by decide)

theorem wAlloc : Statement .wAlloc := fun _ =>
  of_fields (row := ⟨"W.ALLOC", 0x0300, 0xFFFF⟩) (by decide) rfl rfl rfl rfl (by decide)

theorem wUnbind : Statement .wUnbind := fun _ =>
  of_fields (row := ⟨"W.UNBIND", 0x0400, 0xFFFF⟩) (by decide) rfl rfl rfl rfl (by decide)

theorem wSeek (o : Origin) (a : Word) : Statement (.wSeek o a) := fun _ =>
  of_fields (row := ⟨"W.SEEK", 0x0500, 0xFFFC⟩) (by decide) rfl rfl rfl rfl (origin_arg o)

theorem wTell : Statement .wTell := fun _ =>
  of_fields (row := ⟨"W.TELL", 0x0600, 0xFFFF⟩) (by decide) rfl rfl rfl rfl (by decide)

theorem wEnsure (a : Word) : Statement (.wEnsure a) := fun _ =>
  of_fields (row := ⟨"W.ENSURE", 0x0700, 0xFFFF⟩) (by decide) rfl rfl rfl rfl (by decide)

theorem wBit (a : Word) : Statement (.wBit a) := fun _ =>
  of_fields (row := ⟨"W.BIT", 0x0800, 0xFFFF⟩) (by decide) rfl rfl rfl rfl (by decide)

theorem wUint (n : Nat) (v : Word) : Statement (.wUint n v) := fun h =>
  of_fields (row := ⟨"W.UINT", 0x0900, 0xFF80⟩) (by decide) rfl rfl rfl rfl (width_arg h)

theorem wInt (n : Nat) (v : Word) : Statement (.wInt n v) := fun h =>
  of_fields (row := ⟨"W.INT", 0x0A00, 0xFF80⟩) (by decide) rfl rfl rfl rfl (width_arg h)

theorem wInts (n : Nat) (v : Word) : Statement (.wInts n v) := fun h =>
  of_fields (row := ⟨"W.INTS", 0x0B00, 0xFF80⟩) (by decide) rfl rfl rfl rfl (width_arg h)

theorem wData : Statement .wData := fun _ =>
  of_fields (row := ⟨"W.DATA", 0x0C00, 0xFFFF⟩) (by decide) rfl rfl rfl rfl (by decide)

theorem wSize : Statement .wSize := fun _ =>
  of_fields (row := ⟨"W.SIZE", 0x0D00, 0xFFFF⟩) (by decide) rfl rfl rfl rfl (by decide)

theorem rBorrow (a b : Word) : Statement (.rBorrow a b) := fun _ =>
  of_fields (row := ⟨"R.BORROW", 0x8100, 0xFFFF⟩) (by decide) rfl rfl rfl rfl (by decide)

theorem rOwn (a b c : Word) : Statement (.rOwn a b c) := fun _ =>
  of_fields (row := ⟨"R.OWN", 0x8200, 0xFFFF⟩) (by decide) rfl rfl rfl rfl (by decide)

theorem rUnbind : Statement .rUnbind := fun _ =>
  of_fields (row := ⟨"R.UNBIND", 0x8400, 0xFFFF⟩) (by decide) rfl rfl rfl rfl (by decide)

theorem rSeek (o : Origin) (a : Word) : Statement (.rSeek o a) := fun _ =>
  of_fields (row := ⟨"R.SEEK", 0x8500, 0xFFFC⟩) (by decide) rfl rfl rfl rfl (origin_arg o)

theorem rTell : Statement .rTell := fun _ =>
  of_fields (row := ⟨"R.TELL", 0x8600, 0xFFFF⟩) (by decide) rfl rfl rfl rfl (by decide)

theorem rBit : Statement .rBit := fun _ =>
  of_fields (row := ⟨"R.BIT", 0x8800, 0xFFFF⟩) (by decide) rfl rfl rfl rfl (by decide)

theorem rUint (n : Nat) : Statement (.rUint n) := fun h =>
  of_fields (row := ⟨"R.UINT", 0x8900, 0xFF80⟩) (by decide) rfl rfl rfl rfl (width_arg h)

theorem rInt (n : Nat) : Statement (.rInt n) := fun h =>
  of_fields (row := ⟨"R.INT", 0x8A00, 0xFF80⟩) (by decide) rfl rfl rfl rfl (width_arg h)

theorem rInts (n : Nat) : Statement (.rInts n) := fun h =>
  of_fields (row := ⟨"R.INTS", 0x8B00, 0xFF80⟩) (by decide) rfl rfl rfl rfl (width_arg h)

end Sys2Proof.Laws.EncodedRow
end

