-- ==== Sys2Proof/Laws/Values.lean ====
section
/-! SUPPORT. The integers words stand for: the signed value, the sign and the magnitude W.INTS writes, and the results of the
signed reads. -/

namespace Sys2Proof.Machine

theorem signed_toInt (v : Word) : signed v = v.toInt := by
  rw [signed, BitVec.toInt_eq_msb_cond, BitVec.msb_eq_getLsbD_last]
  simp

theorem signBit_eq (v : Word) : signBit v = decide (v.toInt < 0) := by simp [signBit, signed_toInt]

/-- The magnitude is the mathematical absolute value, up to 2^63 (D11). -/
theorem magnitude_toNat (v : Word) : (magnitude v).toNat = v.toInt.natAbs := by
  have := v.toInt_lt
  have := v.le_toInt
  simp only [magnitude, signed_toInt, BitVec.toNat_ofNat]
  omega

/-- The bits of R.INT's result (R164): the rest of the field, and the sign above it. -/
theorem twosComplementResult_bit {rest : Word} {width i : Nat} (b : Bool) (hi : i < 64) :
    (twosComplementResult (if b then 1 else 0) rest width).getLsbD i =
      ((b && decide (width - 1 ≤ i)) || rest.getLsbD i) := by
  cases b
  · simp [twosComplementResult]
  · simp only [twosComplementResult, if_true, BitVec.getLsbD_or, BitVec.getLsbD_shiftLeft, BitVec.getLsbD_allOnes]
    have : i - (width - 1) < 64 := by omega
    simp only [hi, this, decide_true, Bool.and_true, Bool.true_and]
    congr 1
    rw [Bool.eq_iff_iff]
    simp only [Bool.not_eq_true', decide_eq_false_iff_not, decide_eq_true_eq]
    omega

/-- R.INTS's result (R165) is the magnitude, negated if the sign bit is set. -/
theorem signMagnitudeResult_toInt {mag : Word} (b : Bool) (h : mag.toNat < 2 ^ 63) :
    (signMagnitudeResult (if b then 1 else 0) mag).toInt = if b then -(mag.toNat : Int) else mag.toNat := by
  have hm : mag.toInt = mag.toNat := BitVec.toInt_eq_toNat_of_lt (by omega)
  cases b
  · simpa [signMagnitudeResult] using hm
  · simp only [signMagnitudeResult, if_true, BitVec.toInt_neg, hm]
    rw [Int.bmod_eq_of_le] <;> omega

end Sys2Proof.Machine
end

