-- ==== Sys2Proof/Tests/Slice0.lean ====
section
/-! SUPPORT. Tests: what WellFormed refuses, each command's word written out from R84, one step of each command against the
worked vectors of 95_test_vectors.md, and a witness for the hypotheses of each obligation. -/

namespace Sys2Proof.Tests

open Sys2Proof.Machine

/-! ## WellFormed: one ill-formed term for each check (a width is seven bits, R82) -/

theorem test_illformed_wUint : (Instr.wUint 128 0).wellFormed = false := by decide
theorem test_illformed_wInt : (Instr.wInt 128 0).wellFormed = false := by decide
theorem test_illformed_wInts : (Instr.wInts 128 0).wellFormed = false := by decide
theorem test_illformed_rUint : (Instr.rUint 128).wellFormed = false := by decide
theorem test_illformed_rInt : (Instr.rInt 128).wellFormed = false := by decide
theorem test_illformed_rInts : (Instr.rInts 128).wellFormed = false := by decide

/-! ## Decode: each command's word written out bit by bit from R81, R82 and R84 -/

theorem test_decode_wBorrow : decode ⟨0b0000000100000000#16, 0x1000, 8, 9⟩ = .ok (.wBorrow 0x1000 8) := by decide
theorem test_decode_wOwn : decode ⟨0b0000001000000000#16, 0x1000, 8, 9⟩ = .ok (.wOwn 0x1000 8 9) := by decide
theorem test_decode_wAlloc : decode ⟨0b0000001100000000#16, 7, 8, 9⟩ = .ok .wAlloc := by decide
theorem test_decode_wUnbind : decode ⟨0b0000010000000000#16, 7, 8, 9⟩ = .ok .wUnbind := by decide
theorem test_decode_wSeek : decode ⟨0b0000010100000010#16, 7, 8, 9⟩ = .ok (.wSeek .fromEnd 7) := by decide
theorem test_decode_wTell : decode ⟨0b0000011000000000#16, 7, 8, 9⟩ = .ok .wTell := by decide
theorem test_decode_wEnsure : decode ⟨0b0000011100000000#16, 7, 8, 9⟩ = .ok (.wEnsure 7) := by decide
theorem test_decode_wBit : decode ⟨0b0000100000000000#16, 1, 8, 9⟩ = .ok (.wBit 1) := by decide
theorem test_decode_wUint : decode ⟨0b0000100101000000#16, 7, 8, 9⟩ = .ok (.wUint 64 7) := by decide
theorem test_decode_wInt : decode ⟨0b0000101000000101#16, 7, 8, 9⟩ = .ok (.wInt 5 7) := by decide
theorem test_decode_wInts : decode ⟨0b0000101100000101#16, 7, 8, 9⟩ = .ok (.wInts 5 7) := by decide
theorem test_decode_wData : decode ⟨0b0000110000000000#16, 7, 8, 9⟩ = .ok .wData := by decide
theorem test_decode_wSize : decode ⟨0b0000110100000000#16, 7, 8, 9⟩ = .ok .wSize := by decide
theorem test_decode_rBorrow : decode ⟨0b1000000100000000#16, 0x1000, 8, 9⟩ = .ok (.rBorrow 0x1000 8) := by decide
theorem test_decode_rOwn : decode ⟨0b1000001000000000#16, 0x1000, 8, 9⟩ = .ok (.rOwn 0x1000 8 9) := by decide
theorem test_decode_rUnbind : decode ⟨0b1000010000000000#16, 7, 8, 9⟩ = .ok .rUnbind := by decide
theorem test_decode_rSeek : decode ⟨0b1000010100000001#16, 7, 8, 9⟩ = .ok (.rSeek .current 7) := by decide
theorem test_decode_rTell : decode ⟨0b1000011000000000#16, 7, 8, 9⟩ = .ok .rTell := by decide
theorem test_decode_rBit : decode ⟨0b1000100000000000#16, 2, 8, 9⟩ = .ok .rBit := by decide
theorem test_decode_rUint : decode ⟨0b1000100101000000#16, 7, 8, 9⟩ = .ok (.rUint 64) := by decide
theorem test_decode_rInt : decode ⟨0b1000101000000101#16, 7, 8, 9⟩ = .ok (.rInt 5) := by decide
theorem test_decode_rInts : decode ⟨0b1000101100000001#16, 7, 8, 9⟩ = .ok (.rInts 1) := by decide

/-- The reserved words of table V-D. -/
theorem test_decode_reserved :
    ([0x0000, 0xFFFF, 0x0980, 0x0985, 0x0504, 0x0601, 0x0101, 0x1905, 0x4905, 0x8300, 0x8700, 0x8C00, 0x8D00, 0x0E00, 0x0F00,
      0x8E00] : List (BitVec 16)).all (fun c => (decode ⟨c, 5, 0, 0⟩).toOption.isNone) = true := by decide

/-- The number of a packet (log 1). -/
theorem test_table_word : decodeTableWord 208 (0x0903 + 5 * 2 ^ 16) = some (.wUint 3 5) := by decide

/-! ## A small state, and what a step shows -/

/-- `bytes` at 0x1000 up. -/
def cellsOf (bytes : List Byte) : List Host.Cell := (List.range bytes.length).map fun j => (0x1000 + j, bytes.getD j 0)

/-- Both units bound, Borrowed, to `bytes` at 0x1000 with the cursor at `cur`. -/
def lent (bytes : List Byte) (cur : Nat) : State :=
  { State.reset with
    w := ⟨true, .fixed, .borrowed, 0, 0x1000, BitVec.ofNat 64 (8 * bytes.length), BitVec.ofNat 64 cur⟩
    r := ⟨true, .borrowed, 0, 0x1000, BitVec.ofNat 64 (8 * bytes.length), BitVec.ofNat 64 cur⟩
    mem := ⟨cellsOf bytes, []⟩ }

/-- A Growable sink of 16 bytes at the bottom of the heap region, the cursor at `cur`. -/
def heap (cur : Nat) : State :=
  { State.reset with w := ⟨true, .growable, .owned, 0, 0x10000, 128, BitVec.ofNat 64 cur⟩ }

/-- The last response. -/
def last (s : State) : Option (Status × Nat) := s.responses.getLast?.map fun a => (a.status, a.result.toNat)

/-- What a Write Unit command shows: its response, the cursor, and the first `n` bytes at 0x1000. -/
def wShow (n : Nat) (i : Instr) (s : State) : Option (Option (Status × Nat) × Nat × List Byte) :=
  match exec i s with
  | .next t => some (last t, t.w.cur.toNat, t.mem.bytes 0x1000 n)
  | _ => none

/-- What a Read Unit command shows: its response and the cursor. -/
def rShow (i : Instr) (s : State) : Option (Option (Status × Nat) × Nat) :=
  match exec i s with
  | .next t => some (last t, t.r.cur.toNat)
  | _ => none

/-- A step's next state, looked at. -/
def after {α : Type} (o : Host.Outcome State Fault Refusal) (look : State → α) : Option α :=
  match o with
  | .next t => some (look t)
  | _ => none

/-! ## Seek and tell (V-S) -/

theorem test_wSeek_end : wShow 0 (.wSeek .fromEnd 0xFFFFFFFFFFFFFFF0) (lent (List.replicate 8 0) 32) =
    some (some (.ok, 0), 48, []) := by decide
theorem test_wSeek_wraps : wShow 0 (.wSeek .current 0xFFFFFFFFFFFFFFF8) (lent (List.replicate 8 0) 3) =
    some (some (.ok, 0), 2 ^ 64 - 5, []) := by decide
theorem test_wTell : wShow 0 .wTell (lent (List.replicate 8 0) 100) = some (some (.ok, 0x64), 100, []) := by decide
theorem test_rSeek_end : rShow (.rSeek .fromEnd 0xFFFFFFFFFFFFFFFF) (lent [0xA5, 0xA5] 16) =
    some (some (.ok, 0), 15) := by decide
theorem test_rSeek_unbound : after (exec (.rSeek .start 0) State.reset) last = some (some (.badBindState, 0)) := by decide
theorem test_rTell : rShow .rTell (lent [0xA5, 0xA5] 16) = some (some (.ok, 0x10), 16) := by decide

/-! ## Ensure and the accessors (V-E, program P2) -/

theorem test_wEnsure_unsigned : wShow 0 (.wEnsure 0xFFFFFFFFFFFFFFFF) (lent [0, 0, 0, 0] 30) =
    some (some (.ok, 0), 30, []) := by decide
/-- Line 4 of the Growable run: one doubling, the cursor still 120. -/
theorem test_wEnsure_grows : after (exec (.wEnsure 9) (heap 120)) (fun t => (last t, t.w.cap.toNat / 8, t.w.cur.toNat)) =
    some (some (.ok, 1), 32, 120) := by decide
theorem test_wData : wShow 0 .wData (lent [0, 0] 5) = some (some (.ok, 0x1000), 5, []) := by decide
theorem test_wSize : wShow 0 .wSize (lent [0, 0] 5) = some (some (.ok, 2), 5, []) := by decide

/-! ## The write commands (V-B, V-U, V-I, V-M) -/

theorem test_wBit : wShow 1 (.wBit 0) (lent [0x5A] 4) = some (some (.ok, 0), 5, [0x52]) := by decide
theorem test_wBit_second_byte : wShow 2 (.wBit 1) (lent [0, 0] 8) = some (some (.ok, 0), 9, [0, 0x80]) := by decide
/-- V-U 15: 64 bits over nine bytes, 3 leading and 5 trailing bits kept. -/
theorem test_wUint_nine_bytes : wShow 10 (.wUint 64 0x0123456789ABCDEF) (lent (List.replicate 10 0xFF) 3) =
    some (some (.ok, 0), 67, [0xE0, 0x24, 0x68, 0xAC, 0xF1, 0x35, 0x79, 0xBD, 0xFF, 0xFF]) := by decide
/-- V-U 22: 17 > 16, nothing written. -/
theorem test_wUint_no_space : wShow 2 (.wUint 5 7) (lent [0x12, 0x34] 12) =
    some (some (.insufficientSpace, 0), 12, [0x12, 0x34]) := by decide
theorem test_wInt_negative : wShow 2 (.wInt 5 0xFFFFFFFFFFFFFFFE) (lent [0, 0] 1) = some (some (.ok, 0), 6, [0x78, 0]) := by
  decide
theorem test_wInt_truncated : wShow 2 (.wInt 16 0x12345) (lent [0, 0] 0) = some (some (.ok, 0), 16, [0x23, 0x45]) := by decide
theorem test_wInts_crossing : wShow 2 (.wInts 8 0xFFFFFFFFFFFFFF9C) (lent [0, 0] 3) =
    some (some (.ok, 0), 11, [0x1C, 0x80]) := by decide
/-- V-M 13: the magnitude of the most negative value is 2^63, so its low bits are 0. -/
theorem test_wInts_most_negative : wShow 2 (.wInts 5 0x8000000000000000) (lent [0, 0] 0) =
    some (some (.ok, 0), 5, [0x80, 0]) := by decide

/-! ## The read commands (V-B, V-R) -/

theorem test_rBit : rShow .rBit (lent [0xA5] 2) = some (some (.ok, 1), 3) := by decide
theorem test_rBit_no_data : rShow .rBit (lent [0xA5] 8) = some (some (.insufficientData, 0), 8) := by decide
theorem test_rUint_crossing : rShow (.rUint 10) (lent [0x83, 0x11, 0x78, 0x7D] 7) = some (some (.ok, 546), 17) := by decide
theorem test_rUint_nine_bytes :
    rShow (.rUint 64) (lent [0x01, 0x23, 0x45, 0x67, 0x89, 0xAB, 0xCD, 0xEF, 0xF0, 0x0F] 7) =
      some (some (.ok, 0x91A2B3C4D5E6F7F8), 71) := by decide +kernel
theorem test_rInt_negative : rShow (.rInt 5) (lent [0x83, 0x11, 0x78, 0x7D] 17) =
    some (some (.ok, 0xFFFFFFFFFFFFFFFE), 22) := by decide
theorem test_rInt_one_bit : rShow (.rInt 1) (lent [0x83] 0) = some (some (.ok, 0xFFFFFFFFFFFFFFFF), 1) := by decide
theorem test_rInts_negative : rShow (.rInts 5) (lent [0x83, 0x11, 0x78, 0x7D] 17) =
    some (some (.ok, 0xFFFFFFFFFFFFFFF2), 22) := by decide
theorem test_rInts_negative_zero : rShow (.rInts 16) (lent [0x80, 0x00] 0) = some (some (.ok, 0), 16) := by decide

/-! ## Binding, regions, release (V-G) -/

/-- The region that ends exactly at 2^64. -/
theorem test_wBorrow_top : after (exec (.wBorrow 0xE000000000000001 0x1FFFFFFFFFFFFFFF) State.reset)
    (fun t => (last t, t.w.bound, t.w.cap.toNat)) = some (some (.ok, 0), true, 0xFFFFFFFFFFFFFFF8) := by decide
theorem test_wBorrow_wraps : after (exec (.wBorrow 0xFFFFFFFFFFFFFFFF 2) State.reset) (fun t => (last t, t.w.bound)) =
    some (some (.badRegion, 0), false) := by decide
theorem test_wOwn_bound : after (exec (.wOwn 0 0 5) (lent [0] 0)) last = some (some (.badBindState, 0)) := by decide
theorem test_wAlloc : after (exec .wAlloc State.reset) (fun t => (last t, t.w.bound, t.w.variant, t.w.cap.toNat, t.w.cur.toNat)) =
    some (some (.ok, 0), true, .growable, 128, 0) := by decide
theorem test_wUnbind_borrowed : after (exec .wUnbind (lent [0] 0)) (fun t => (last t, t.w.bound, t.relLog)) =
    some (some (.ok, 0), false, []) := by decide
/-- Program P1, lines 1 and 24. -/
theorem test_wOwn_then_wUnbind :
    (after (exec (.wOwn 0x2000 4 0xCAFE) State.reset) fun t => after (exec .wUnbind t) (·.relLog)) =
      some (some [⟨0xCAFE, 0x2000, 4⟩]) := by decide
theorem test_rBorrow_above_maximum : after (exec (.rBorrow 0 0x2000000000000000) State.reset) last =
    some (some (.badRegion, 0)) := by decide
/-- Lines 2 and 3 of the release run. -/
theorem test_rOwn_then_rUnbind :
    (after (exec (.rOwn 0x3000 2 7) State.reset) fun t => after (exec .rUnbind t) (·.relLog)) =
      some (some [⟨7, 0x3000, 2⟩]) := by decide
theorem test_rUnbind_unbound : after (exec .rUnbind State.reset) last = some (some (.badBindState, 0)) := by decide

/-! ## Masks and status codes (R100 to R102, R200) -/

theorem test_lowMask : (List.range 9).map lowMask = [0x00, 0x01, 0x03, 0x07, 0x0F, 0x1F, 0x3F, 0x7F, 0xFF] := by decide
theorem test_setMask : (List.range 8).map setMask = [0x80, 0x40, 0x20, 0x10, 0x08, 0x04, 0x02, 0x01] := by decide
theorem test_clearMask : (List.range 8).map clearMask = [0x7F, 0xBF, 0xDF, 0xEF, 0xF7, 0xFB, 0xFD, 0xFE] := by decide
theorem test_status_codes : (List.range 16).map (fun n => (Status.ofCode (BitVec.ofNat 4 n)).map (·.code.toNat)) =
    [some 0, some 1, some 2, some 3, some 4, some 5, some 6, none, none, none, none, none, none, none, none, none] := by
  decide

/-! ## Witnesses: states and operands that meet the hypotheses of the obligations, clause by clause -/

theorem test_inv_lent (cur : Nat) : (lent [0x12, 0x34] cur).Inv :=
  inv_cursorR (s := { lent [0x12, 0x34] 0 with w := { (lent [0x12, 0x34] 0).w with cur := BitVec.ofNat 64 cur } })
    (inv_cursorW (s := lent [0x12, 0x34] 0)
      ⟨by decide, by decide, by decide, by decide, by decide, by decide, by decide, by decide, by decide,
        fun _ h => by cases h⟩ _) _

theorem test_inv_lent_ten (cur : Nat) : (lent (List.replicate 10 0xFF) cur).Inv :=
  inv_cursorR (s := { lent (List.replicate 10 0xFF) 0 with
      w := { (lent (List.replicate 10 0xFF) 0).w with cur := BitVec.ofNat 64 cur } })
    (inv_cursorW (s := lent (List.replicate 10 0xFF) 0)
      ⟨by decide, by decide, by decide, by decide, by decide, by decide, by decide, by decide, by decide,
        fun _ h => by cases h⟩ _) _

theorem test_inv_heap (cur : Nat) : (heap cur).Inv :=
  inv_cursorW (s := heap 0)
    ⟨by decide, by decide, by decide, by decide, by decide, by decide, by decide, by decide, by decide,
      fun _ _ => ⟨rfl, ⟨0, by decide⟩, by decide, by decide⟩⟩ _

/-- Both units unbound. -/
def free : State := { lent [0x12, 0x34] 0 with w := { State.reset.w with cur := 5 }, r := State.reset.r }

theorem test_inv_free : free.Inv :=
  ⟨by decide, by decide, by decide, by decide, by decide, by decide, by decide, by decide, by decide, fun h => by cases h⟩

/-- The host presents `p` next. -/
def present (p : Packet) (s : State) : State := { s with pending := [.command p] }

theorem test_witness_DecodeOfEncode : ∃ i : Instr, i.wellFormed = true ∧ i = .wUint 127 0xFFFFFFFFFFFFFFFF :=
  ⟨_, by decide, rfl⟩

theorem test_witness_DecodedCommandOwnsItsWord :
    ∃ (p q : Packet) (i : Instr), decode p = .ok i ∧ q.cmd = p.cmd ∧ q.a0 = p.a0 ∧ q.a1 ≠ p.a1 ∧ i.operandCount = 1 :=
  ⟨⟨0x097F, 5, 6, 7⟩, ⟨0x097F, 5, 0, 0⟩, .wUint 127 5, by decide⟩

theorem test_witness_DecodeFollowsTheOpcodeMap :
    ∃ (p : Packet) (i : Instr), decode p = .ok i ∧ ∃ row ∈ opcodeRows, row.selects p.cmd = true :=
  ⟨⟨0x0503, 5, 6, 7⟩, .wSeek .reserved 5, by decide, ⟨"W.SEEK", 0x0500, 0xFFFC⟩, by decide, by decide⟩

theorem test_witness_ReservedWordsAreAnsweredIllegal :
    (∃ (s : State) (p : Packet) (rest : List HostAction), reservedWord p.cmd ∧ s.pending = .command p :: rest) ∧
    reservedWord 0x0980#16 ∧ ¬reservedWord 0x097F#16 :=
  ⟨⟨present ⟨0x8300, 0, 0, 0⟩ free, _, _, by decide, rfl⟩, by decide, by decide⟩

theorem test_witness_StepRunsTheDecodedCommand :
    ∃ (s : State) (p : Packet) (rest : List HostAction) (i : Instr), s.pending = .command p :: rest ∧ decode p = .ok i :=
  ⟨present ⟨0x0905, 0x1D, 0, 0⟩ (lent [0, 0] 6), _, _, .wUint 5 0x1D, rfl, by decide⟩

theorem test_witness_FetchedWordRuns : ∃ (nbits w : Nat) (i : Instr), decodeTableWord nbits w = some i :=
  ⟨16, 0x8940, .rUint 64, by decide⟩

theorem test_witness_IdleStepHoldsTheState : ∃ s : State, s.pending = [] := ⟨lent [0] 0, rfl⟩

theorem test_witness_ResetUnbindsBothUnits :
    ∃ (s : State) (rest : List HostAction), s.pending = .reset :: rest ∧ s.w.bound = true :=
  ⟨{ heap 0 with pending := [.reset] }, _, rfl, rfl⟩

theorem test_witness_HostWriteSetsOneByte :
    (∃ (s : State) (a : Nat) (v : Byte) (rest : List HostAction), s.pending = .write a v :: rest ∧ 2 ^ s.params.aw ≤ a) ∧
    (∀ a ∈ [0x10000, 0x10FFF], ∃ (s : State) (v : Byte) (rest : List HostAction), s.pending = .write a v :: rest ∧
      a < 2 ^ s.params.aw ∧ s.params.heapBase ≤ a ∧ a < s.params.heapBase + s.params.heapBytes) ∧
    (∀ a ∈ [0, 0xFFFF, 0x11000, 2 ^ 64 - 1], ∃ (s : State) (v : Byte) (rest : List HostAction),
      s.pending = .write a v :: rest ∧ a < 2 ^ s.params.aw ∧
      ¬(s.params.heapBase ≤ a ∧ a < s.params.heapBase + s.params.heapBytes)) := by
  refine ⟨⟨{ free with pending := [.write (2 ^ 64) 1] }, _, _, _, rfl, by decide⟩, ?_, ?_⟩
  · exact fun a h => ⟨{ free with pending := [.write a 1] }, 1, [], rfl, by
      revert a; decide, by revert a; decide, by revert a; decide⟩
  · exact fun a h => ⟨{ free with pending := [.write a 1] }, 1, [], rfl, by
      revert a; decide, by revert a; decide⟩

theorem test_witness_StatusFollowsThePriority :
    ∃ (s : State) (p : Packet) (rest : List HostAction), s.Inv ∧ s.pending = .command p :: rest :=
  ⟨present ⟨0x0905, 7, 0, 0⟩ (lent [0x12, 0x34] 12), _, _, inv_pending (test_inv_lent 12) _, rfl⟩

theorem test_witness_FailureChangesNothing :
    ∃ (s t : State) (p : Packet) (rest : List HostAction) (a : Response), s.pending = .command p :: rest ∧
      step s = .next t ∧ t.responses = s.responses ++ [a] ∧ a.status ≠ .ok :=
  ⟨present ⟨0x0905, 7, 0, 0⟩ (lent [0x12, 0x34] 12), (lent [0x12, 0x34] 12).answer .insufficientSpace 0, _, _,
    ⟨.insufficientSpace, 0⟩, rfl, rfl, rfl, by decide⟩

/-- Each cause of R203 at its boundary, and a step that answers IllegalCommand. -/
theorem test_witness_IllegalCommandDependsOnThePacketAlone :
    illegalPacket ⟨0x0900, 0, 0, 0⟩ ∧ illegalPacket ⟨0x0941, 0, 0, 0⟩ ∧ illegalPacket ⟨0x897F, 0, 0, 0⟩ ∧
    illegalPacket ⟨0x8503, 0, 0, 0⟩ ∧ illegalPacket ⟨0x0800, 2, 0, 0⟩ ∧ ¬illegalPacket ⟨0x0800, 1, 0, 0⟩ ∧
    ¬illegalPacket ⟨0x0901, 0, 0, 0⟩ ∧ ¬illegalPacket ⟨0x0940, 0, 0, 0⟩ ∧ ¬illegalPacket ⟨0x8800, 2, 0, 0⟩ ∧
    ∃ (s t : State) (p : Packet) (rest : List HostAction) (v : Word), s.pending = .command p :: rest ∧
      step s = .next t ∧ t.responses = s.responses ++ [⟨.illegalCommand, v⟩] :=
  ⟨by decide, by decide, by decide, by decide, by decide, by decide, by decide, by decide, by decide,
    present ⟨0x0503, 5, 0, 0⟩ free, free.answer .illegalCommand 0, _, _, 0, rfl, rfl, rfl⟩

theorem test_witness_seeks :
    (∃ (s : State) (o : Origin), s.w.bound = false ∧ s.r.bound = false ∧ o ≠ .reserved) ∧
    (∃ s : State, s.w.bound = true ∧ s.r.bound = true ∧ ∀ o ∈ [Origin.start, .current, .fromEnd], ∃ base : Nat,
      o = .start ∧ base = 0 ∨ o = .current ∧ base = s.w.cur.toNat ∨ o = .fromEnd ∧ base = s.w.cap.toNat) :=
  ⟨⟨free, .fromEnd, by decide⟩, lent [0x12, 0x34] 3, rfl, rfl, fun o h => by
    simp only [List.mem_cons, List.not_mem_nil, or_false] at h
    rcases h with rfl | rfl | rfl
    · exact ⟨_, .inl ⟨rfl, rfl⟩⟩
    · exact ⟨_, .inr (.inl ⟨rfl, rfl⟩)⟩
    · exact ⟨_, .inr (.inr ⟨rfl, rfl⟩)⟩⟩

/-- Bound and unbound states, for the tell, accessor, binding and unbinding statements. -/
theorem test_witness_bound_and_unbound :
    (∃ s : State, s.Inv ∧ s.w.bound = false ∧ s.r.bound = false) ∧ (∃ s : State, s.Inv ∧ s.w.bound = true ∧ s.r.bound = true) :=
  ⟨⟨free, test_inv_free, rfl, rfl⟩, lent [0x12, 0x34] 0, test_inv_lent 0, rfl, rfl⟩

/-- The heap region covers a need of 32768 bits and not one of 32769. -/
theorem test_witness_EnsureAnswersOrGrows :
    (∃ s : State, s.Inv ∧ s.w.bound = true ∧ s.w.variant = .fixed) ∧
    (∃ (s : State) (bits : Word), s.Inv ∧ s.w.bound = true ∧ s.w.variant = .growable ∧ heapCovers s bits.toNat = true) ∧
    (∃ (s : State) (bits : Word), s.Inv ∧ s.w.bound = true ∧ s.w.variant = .growable ∧ heapCovers s bits.toNat = false) :=
  ⟨⟨lent [0x12, 0x34] 0, test_inv_lent 0, rfl, rfl⟩, ⟨heap 120, 0x7F88, test_inv_heap 120, rfl, rfl, by decide⟩,
    heap 120, 0x7F89, test_inv_heap 120, rfl, rfl, by decide⟩

theorem test_witness_GrowthKeepsTheStream :
    ∃ (s t : State) (bits : Word), s.Inv ∧ s.w.bound = true ∧ s.w.variant = .growable ∧ exec (.wEnsure bits) s = .next t ∧
      t.w.cap ≠ s.w.cap := by
  obtain ⟨t, ht, hc⟩ : ∃ t, exec (.wEnsure 9) (heap 120) = .next t ∧ t.w.cap.toNat = 256 := by
    rcases h : exec (.wEnsure 9) (heap 120) with t | e | e
    · refine ⟨t, rfl, ?_⟩
      have : after (exec (.wEnsure 9) (heap 120)) (fun t => t.w.cap.toNat) = some 256 := by decide
      rw [h] at this
      simpa [after] using this
    · have : (after (exec (.wEnsure 9) (heap 120)) (fun t => t.w.cap.toNat)).isSome = true := by decide
      rw [h] at this; cases this
    · have : (after (exec (.wEnsure 9) (heap 120)) (fun t => t.w.cap.toNat)).isSome = true := by decide
      rw [h] at this; cases this
  exact ⟨heap 120, t, 9, test_inv_heap 120, rfl, rfl, ht, fun e => by rw [e] at hc; revert hc; decide⟩

/-- A field that needs growth, with stream bits before it. -/
theorem test_witness_GrowableWriteKeepsEarlierFields :
    ∃ (s t : State) (width : Nat) (value : Word), s.Inv ∧ s.w.bound = true ∧ s.w.variant = .growable ∧
      exec (.wUint width value) s = .next t ∧ t.w.cur ≠ s.w.cur ∧ s.w.cap.toNat < s.w.cur.toNat + width ∧
      ∃ p < s.w.cap.toNat, p < s.w.cur.toNat := by
  rcases ensureOrFail_growable (s := heap 120) (n := 9) (test_inv_heap 120) rfl rfl (by decide) with
    ⟨h, -⟩ | ⟨-, g, h, -, -, hcur, -⟩
  · exact absurd h (by decide)
  · refine ⟨heap 120, (g.writeFieldRaw 5 9).answer .ok 0, 9, 5, test_inv_heap 120, rfl, rfl, ?_, ?_, by decide, 0,
      by decide, by decide⟩
    · have e : exec (.wUint 9 5) (heap 120) =
          (heap 120).settle ((heap 120).ensureOrFail 9) (fun t => (t.writeFieldRaw 5 9).respond 0) := rfl
      rw [e, h]
      rfl
    · simp only [answer_w, writeFieldRaw_w, hcur]
      decide

/-- The five clauses of `WritesField` at the boundaries of one-bit and 64-bit fields. -/
theorem test_witness_WritesField :
    (∃ s : State, s.Inv ∧ s.w.bound = false) ∧
    (∃ s : State, s.Inv ∧ s.w.bound = true ∧ s.w.variant = .fixed ∧ s.w.cap.toNat + 1 = s.w.cur.toNat + 1) ∧
    (∃ s : State, s.Inv ∧ s.w.bound = true ∧ s.w.variant = .fixed ∧ s.w.cur.toNat + 1 = s.w.cap.toNat) ∧
    (∃ s : State, s.Inv ∧ s.w.bound = true ∧ s.w.variant = .fixed ∧ s.w.cap.toNat + 1 = s.w.cur.toNat + 64) ∧
    (∃ s : State, s.Inv ∧ s.w.bound = true ∧ s.w.variant = .fixed ∧ s.w.cur.toNat + 64 = s.w.cap.toNat) ∧
    (∃ s : State, s.Inv ∧ s.w.bound = true ∧ s.w.variant = .growable ∧ heapCovers s 1 = false) ∧
    (∃ s : State, s.Inv ∧ s.w.bound = true ∧ s.w.variant = .growable ∧ heapCovers s 1 = true ∧ heapCovers s 64 = false) ∧
    (∃ s : State, s.Inv ∧ s.w.bound = true ∧ s.w.variant = .growable ∧ heapCovers s 64 = true) :=
  ⟨⟨free, test_inv_free, rfl⟩, ⟨lent [0x12, 0x34] 16, test_inv_lent 16, rfl, rfl, by decide⟩,
    ⟨lent [0x12, 0x34] 15, test_inv_lent 15, rfl, rfl, by decide⟩,
    ⟨lent (List.replicate 10 0xFF) 17, test_inv_lent_ten 17, rfl, rfl, by decide⟩,
    ⟨lent (List.replicate 10 0xFF) 16, test_inv_lent_ten 16, rfl, rfl, by decide⟩,
    ⟨heap 32768, test_inv_heap 32768, rfl, rfl, by decide⟩, ⟨heap 32767, test_inv_heap 32767, rfl, rfl, by decide, by decide⟩,
    heap 32704, test_inv_heap 32704, rfl, rfl, by decide⟩

/-- The three clauses of `ReadsField` at the boundaries of one-bit and 64-bit fields. -/
theorem test_witness_ReadsField :
    (∃ s : State, s.Inv ∧ s.r.bound = false) ∧
    (∃ s : State, s.Inv ∧ s.r.bound = true ∧ s.r.cap.toNat + 1 = s.r.cur.toNat + 1) ∧
    (∃ s : State, s.Inv ∧ s.r.bound = true ∧ s.r.cur.toNat + 1 = s.r.cap.toNat) ∧
    (∃ s : State, s.Inv ∧ s.r.bound = true ∧ s.r.cap.toNat + 1 = s.r.cur.toNat + 64) ∧
    (∃ s : State, s.Inv ∧ s.r.bound = true ∧ s.r.cur.toNat + 64 = s.r.cap.toNat) :=
  ⟨⟨free, test_inv_free, rfl⟩, ⟨lent [0x12, 0x34] 16, test_inv_lent 16, rfl, by decide⟩,
    ⟨lent [0x12, 0x34] 15, test_inv_lent 15, rfl, by decide⟩,
    ⟨lent (List.replicate 10 0xFF) 17, test_inv_lent_ten 17, rfl, by decide⟩,
    lent (List.replicate 10 0xFF) 16, test_inv_lent_ten 16, rfl, by decide⟩

/-- Operands: the illegal and legal bits and widths, and a sign-magnitude write (WriteCommandsShareOneField). -/
theorem test_witness_operands :
    (∃ bit : Word, 1 < bit.toNat ∧ bit = 2) ∧ (∃ bit : Word, bit.toNat ≤ 1 ∧ bit = 1) ∧
    (∃ (s : State) (width : Nat), s.Inv ∧ 1 ≤ width ∧ width ≤ 64 ∧ width = 64) :=
  ⟨⟨2, by decide, rfl⟩, ⟨1, by decide, rfl⟩, lent (List.replicate 10 0xFF) 16, 64, test_inv_lent_ten 16, by decide⟩

theorem test_witness_PackingAlgorithmHasTheNetEffect : ∃ w : Nat, w ≤ 64 ∧ w = 64 := ⟨64, by decide⟩

/-- The same eight stream bits at two places of two buffers. -/
theorem test_witness_ReadDependsOnItsBitsAlone :
    ∃ (s s' t t' : State) (width : Nat) (i : Instr), i = .rUint width ∧ exec i s = .next t ∧ exec i s' = .next t' ∧
      t.r.cur ≠ s.r.cur ∧ t'.r.cur ≠ s'.r.cur ∧
      ∀ k < width, sbit s.mem s.r.base.toNat (s.r.cur.toNat + k) = sbit s'.mem s'.r.base.toNat (s'.r.cur.toNat + k) :=
  ⟨lent [0xA5] 0, lent [0x00, 0xA5] 8, _, _, 8, .rUint 8, rfl, rfl, rfl, by decide, by decide, by decide⟩

theorem test_witness_RoundTrip : ∃ (s : State) (width : Nat), ReadsWhatIsWritten s width ∧ 1 ≤ width ∧ width = 64 :=
  ⟨lent (List.replicate 10 0xFF) 16, 64, ⟨test_inv_lent_ten 16, rfl, rfl, rfl, rfl, rfl, by decide⟩, by decide, rfl⟩

/-- The regions of table V-G at the edges of R188. -/
theorem test_witness_regions :
    regionFits free 0 0 ∧ regionFits free 0xFFFFFFFFFFFFFFFF 1 ∧ regionFits free 0xE000000000000001 0x1FFFFFFFFFFFFFFF ∧
    ¬regionFits free 0xFFFFFFFFFFFFFFFF 2 ∧ ¬regionFits free 0 0x2000000000000000 ∧
    ¬regionFits free 0xE000000000000002 0x1FFFFFFFFFFFFFFF ∧ free.w.bound = false ∧ free.r.bound = false := by decide

/-- The variants and ownerships the unbind statements tell apart. -/
theorem test_witness_unbinds :
    (∃ s : State, s.w.bound = true ∧ s.w.variant = .fixed ∧ s.w.own = .owned ∧ s.r.bound = true ∧ s.r.own = .owned) ∧
    (∃ s : State, s.w.bound = true ∧ s.w.variant = .fixed ∧ s.w.own = .borrowed ∧ s.r.bound = true ∧ s.r.own = .borrowed) ∧
    (∃ s : State, s.w.bound = true ∧ s.w.variant = .growable) :=
  ⟨⟨{ lent [0] 0 with w := { (lent [0] 0).w with own := .owned }, r := { (lent [0] 0).r with own := .owned } }, by decide⟩,
    ⟨lent [0] 0, by decide⟩, heap 0, by decide⟩

theorem test_witness_ReleaseEventsComeFromOwnedUnbindsAlone :
    ∃ s t : State, step s = .next t ∧ t.relLog ≠ s.relLog :=
  ⟨present ⟨0x8400, 0, 0, 0⟩ { lent [0] 0 with r := { (lent [0] 0).r with own := .owned } }, _, rfl, by decide⟩

/-- A bind, an unbind and a reset of each unit. -/
theorem test_witness_BindStateChangesOnlyByBindAndUnbind :
    (∃ s t : State, step s = .next t ∧ s.w.bound = false ∧ t.w.bound = true) ∧
    (∃ s t : State, step s = .next t ∧ s.w.bound = true ∧ t.w.bound = false) ∧
    (∃ s t : State, step s = .next t ∧ s.r.bound = false ∧ t.r.bound = true) ∧
    (∃ s t : State, step s = .next t ∧ s.r.bound = true ∧ t.r.bound = false ∧ s.w.bound = true ∧ t.w.bound = false) :=
  ⟨⟨present ⟨0x0300, 0, 0, 0⟩ free, _, rfl, rfl, rfl⟩, ⟨present ⟨0x0400, 0, 0, 0⟩ (lent [0] 0), _, rfl, rfl, rfl⟩,
    ⟨present ⟨0x8200, 0, 0, 7⟩ free, _, rfl, rfl, rfl⟩,
    { lent [0] 0 with pending := [.reset] }, _, rfl, rfl, rfl, rfl, rfl⟩

/-- A step from a state that meets the invariant, both units bound before and after (StepKeepsTheInvariant,
BindingIsImmutableWhileBound), that changes a byte (StoresStayInTheBoundRegion). -/
theorem test_witness_steps :
    ∃ (s t : State) (p : Packet) (rest : List HostAction), s.Inv ∧ s.pending = .command p :: rest ∧ step s = .next t ∧
      s.w.bound = true ∧ t.w.bound = true ∧ s.r.bound = true ∧ t.r.bound = true ∧
      t.mem.read 0x1000 ≠ s.mem.read 0x1000 :=
  ⟨present ⟨0x0800, 1, 0, 0⟩ (lent [0x12, 0x34] 0), _, _, _, inv_pending (test_inv_lent 0) _, rfl, rfl, rfl, rfl, rfl, rfl,
    by decide⟩

/-- A Write Unit and a Read Unit command that succeed (UnitsDoNotTouchEachOther, CursorsAdvanceByTheWidth,
OutputsAreNeverRead). -/
theorem test_witness_units :
    (∃ (s t : State) (v : Word), s.Inv ∧ exec (.wInts 16 5) s = .next t ∧ t.responses = s.responses ++ [⟨.ok, v⟩]) ∧
    (∃ (s t : State) (v : Word), s.Inv ∧ exec (.rInts 16) s = .next t ∧ t.responses = s.responses ++ [⟨.ok, v⟩]) :=
  ⟨⟨lent [0x12, 0x34] 0, _, _, test_inv_lent 0, rfl, rfl⟩, lent [0x12, 0x34] 0, _, _, test_inv_lent 0, rfl, rfl⟩

end Sys2Proof.Tests
end

section
/-! PROOFS. The statements of 00_scope.md: a step runs the packet's command, W.ALLOC, and the invariant of R24 over every
step. -/

namespace Sys2Proof.Machine

variable {s t : State}

/-! ## The step on a presented packet (R10, R11) -/

theorem step_command {p : Packet} {rest : List HostAction} (h : s.pending = .command p :: rest) :
    step s = runPacket p { s with pending := rest } := by
  simp only [step, h]

theorem runPacket_ok {p : Packet} {i : Instr} (h : decode p = .ok i) : runPacket p s = exec i s := by
  simp only [runPacket, h]

/-! ## The bind check (R202) -/

theorem requireBound_pass {b want : Bool} (h : b = want) (k : Outcome) : s.requireBound b want k = k := if_pos h

theorem requireBound_fail {b want : Bool} (h : b ≠ want) (k : Outcome) :
    s.requireBound b want k = .next (s.answer .badBindState 0) := if_neg h

/-! ## The invariant under what the commands leave -/

/-- The constraint of R5 that lets W.ALLOC find room. -/
theorem initBytes_le_heapBytes (inv : s.Inv) : s.params.initBytes ≤ s.params.heapBytes := by
  obtain ⟨-, -, -, hle, -, -⟩ := inv.params
  exact hle

theorem inv_failed (inv : s.Inv) {legal : Bool} (h : Failed legal s t) : t.Inv := by
  obtain ⟨st, -, -, rfl⟩ := h
  exact inv_answer inv st 0

/-- A field that lies in the bound buffer may be written (R24 (c), R56). -/
theorem inv_writeFieldRaw_of_fits (inv : s.Inv) (hb : s.w.bound = true) {n : Nat} (v : Word)
    (hf : s.w.cur.toNat + n ≤ s.w.cap.toNat) : (s.writeFieldRaw v n).Inv :=
  inv_writeFieldRaw inv v (mayTouch_of_fits inv hb hf)

/-- What W.BIT, W.UINT and W.INT write once their capacity check is ready (R113). -/
theorem inv_checkedWrite {g : State} {n : Nat} (inv : s.Inv) (hb : s.w.bound = true) (h : s.ensureOrFail n = .ready g)
    (v : Word) : (g.writeFieldRaw v n).Inv := by
  obtain ⟨ginv, hfit⟩ := ensureOrFail_inv inv hb h
  have hgb : g.w.bound = true := (ensureOrFail_frame h).bound.trans hb
  exact inv_writeFieldRaw_of_fits ginv hgb v hfit

/-- What W.INTS writes once its one check of the whole width is ready (R136): the sign bit, then the magnitude. -/
theorem inv_checkedSignedWrite {g : State} {n : Nat} (inv : s.Inv) (hb : s.w.bound = true)
    (h : s.ensureOrFail n = .ready g) (hn : 1 ≤ n) (sign : Bool) (mag : Word) :
    ((g.writeBitRaw sign).writeFieldRaw mag (n - 1)).Inv := by
  obtain ⟨ginv, hfit⟩ := ensureOrFail_inv inv hb h
  have hgb : g.w.bound = true := (ensureOrFail_frame h).bound.trans hb
  have hcur : (g.w.cur + 1#64).toNat = g.w.cur.toNat + 1 := advance_toNat (n := 1) (cap := g.w.cap) (by omega)
  have hbit : (g.writeBitRaw sign).Inv := by
    rw [writeBitRaw_eq g sign (v := BitVec.setWidth 64 (BitVec.ofBool sign)) (by cases sign <;> rfl)]
    exact inv_writeFieldRaw_of_fits ginv hgb _ (by omega)
  refine inv_writeFieldRaw_of_fits hbit hgb mag ?_
  simp only [writeBitRaw_w, hcur]
  omega

/-- Giving the buffer back (R183): the release log is free of the invariant, and forgetting bytes lists none. -/
theorem inv_disposeW (inv : s.Inv) : s.disposeW.Inv := by
  cases hv : s.w.variant with
  | fixed =>
    cases ho : s.w.own with
    | owned => simpa only [State.disposeW, hv, ho] using inv_release inv _ _ _
    | borrowed => simpa only [State.disposeW, hv, ho] using inv
  | growable =>
    simpa only [State.disposeW, hv] using inv_mem inv (wf_forget inv.memory ..) (listedBelow_forget inv.listed _ _ _)

theorem inv_disposeR (inv : s.Inv) : s.disposeR.Inv := by
  cases ho : s.r.own with
  | owned => simpa only [State.disposeR, ho] using inv_release inv _ _ _
  | borrowed => simpa only [State.disposeR, ho] using inv

theorem inv_unbindW (inv : s.Inv) : s.unbindW.Inv := by
  have h := inv_drawn (inv_unboundW (inv_disposeW inv) s.draws)
  simpa only [State.unbindW, disposeW_params] using h

theorem inv_unbindR (inv : s.Inv) : s.unbindR.Inv := by
  have h := inv_drawn (inv_unboundR (inv_disposeR inv) s.draws)
  simpa only [State.unbindR, disposeR_params] using h

theorem inv_hostReset (inv : s.Inv) : s.hostReset.Inv :=
  inv_drawn (inv_unboundR (inv_unboundW inv s.draws) s.draws)

theorem inv_hostWrite {a : Nat} {v : Byte} (inv : s.Inv) (h : s.hostWrite a v = .next t) : t.Inv := by
  obtain ⟨ha, -, rfl⟩ := hostWrite_next h
  exact inv_mem inv (wf_write inv.memory a v) (listedBelow_write inv.listed ha v)

/-! ## Every command and every step keeps the invariant -/

/-- By the command: it failed and only answered, or it had the effect its inversion lemma gives. -/
theorem inv_exec {i : Instr} (inv : s.Inv) (h : exec i s = .next t) : t.Inv := by
  have failed {legal : Bool} : Failed legal s t → t.Inv := inv_failed inv
  cases i with
  | wBorrow base nbytes =>
    exact (wBorrow_next h).elim failed fun ⟨_, hr, ht⟩ => ht ▸ inv_answer (inv_drawn (inv_bindW inv _ _ hr)) _ _
  | wOwn base nbytes token =>
    exact (wOwn_next h).elim failed fun ⟨_, hr, ht⟩ => ht ▸ inv_answer (inv_bindW inv _ _ hr) _ _
  | wAlloc =>
    obtain ⟨hlo, hhi⟩ := placeInHeap_range s.params s.draws (initBytes_le_heapBytes inv)
    exact (wAlloc_next h).elim failed fun ⟨_, ht⟩ => ht ▸ inv_answer (inv_allocAt inv hlo hhi) _ _
  | wUnbind => exact (wUnbind_next h).elim failed fun ⟨_, ht⟩ => ht ▸ inv_answer (inv_unbindW inv) _ _
  | wSeek origin offset => exact (wSeek_next h).elim failed fun ⟨_, _, ht⟩ => ht ▸ inv_answer (inv_cursorW inv _) _ _
  | wTell => exact (wTell_next h).elim failed fun ⟨_, ht⟩ => ht ▸ inv_answer inv _ _
  | wEnsure bits =>
    rcases wEnsure_next h with hf | ⟨-, -, rfl⟩ | ⟨hb, hv, g, hg, rfl⟩
    · exact failed hf
    · exact inv_answer inv _ _
    · exact inv_answer (grow_inv inv hb hv hg) _ _
  | wBit bit =>
    exact (wBit_next h).elim failed fun ⟨_, hb, g, hg, ht⟩ => ht ▸ inv_answer (inv_checkedWrite inv hb hg _) _ _
  | wUint width value =>
    exact (wUint_next h).elim failed fun ⟨_, hb, g, hg, ht⟩ => ht ▸ inv_answer (inv_checkedWrite inv hb hg _) _ _
  | wInt width value =>
    exact (wInt_next h).elim failed fun ⟨_, hb, g, hg, ht⟩ => ht ▸ inv_answer (inv_checkedWrite inv hb hg _) _ _
  | wInts width value =>
    exact (wInts_next h).elim failed fun ⟨hl, hb, g, hg, ht⟩ =>
      ht ▸ inv_answer (inv_checkedSignedWrite inv hb hg (widthLegal_iff.1 hl).1 _ _) _ _
  | wData => exact (wData_next h).elim failed fun ⟨_, ht⟩ => ht ▸ inv_answer inv _ _
  | wSize => exact (wSize_next h).elim failed fun ⟨_, ht⟩ => ht ▸ inv_answer inv _ _
  | rBorrow base nbytes =>
    exact (rBorrow_next h).elim failed fun ⟨_, hr, ht⟩ => ht ▸ inv_answer (inv_drawn (inv_bindR inv _ _ hr)) _ _
  | rOwn base nbytes token =>
    exact (rOwn_next h).elim failed fun ⟨_, hr, ht⟩ => ht ▸ inv_answer (inv_bindR inv _ _ hr) _ _
  | rUnbind => exact (rUnbind_next h).elim failed fun ⟨_, ht⟩ => ht ▸ inv_answer (inv_unbindR inv) _ _
  | rSeek origin offset => exact (rSeek_next h).elim failed fun ⟨_, _, ht⟩ => ht ▸ inv_answer (inv_cursorR inv _) _ _
  | rTell => exact (rTell_next h).elim failed fun ⟨_, ht⟩ => ht ▸ inv_answer inv _ _
  | rBit => exact (rBit_next h).elim failed fun ⟨_, _, ht⟩ => ht ▸ inv_answer (inv_cursorR inv _) _ _
  | rUint width => exact (rUint_next h).elim failed fun ⟨_, _, _, ht⟩ => ht ▸ inv_answer (inv_cursorR inv _) _ _
  | rInt width => exact (rInt_next h).elim failed fun ⟨_, _, _, ht⟩ => ht ▸ inv_answer (inv_cursorR inv _) _ _
  | rInts width => exact (rInts_next h).elim failed fun ⟨_, _, _, ht⟩ => ht ▸ inv_answer (inv_cursorR inv _) _ _

theorem inv_runPacket {p : Packet} (inv : s.Inv) (h : runPacket p s = .next t) : t.Inv := by
  rcases runPacket_next h with ⟨e, -, rfl⟩ | ⟨i, -, hi⟩
  · exact inv_answer inv _ _
  · exact inv_exec inv hi

theorem inv_step (inv : s.Inv) (h : step s = .next t) : t.Inv := by
  rcases step_cases s with ⟨-, hs⟩ | ⟨p, rest, -, hs⟩ | ⟨a, v, rest, -, hs⟩ | ⟨rest, -, hs⟩ <;> rw [hs] at h
  · exact next_inj.1 h ▸ inv
  · exact inv_runPacket (inv_pending inv rest) h
  · exact inv_hostWrite (inv_pending inv rest) h
  · exact next_inj.1 h ▸ inv_hostReset (inv_pending inv rest)

/-! ## W.ALLOC (R182) -/

/-- The buffer self-allocation binds, at an address of the heap region. -/
theorem allocAt_buffer (inv : s.Inv) {nb : Nat} (hhi : nb + s.params.initBytes ≤ s.params.heapBase + s.params.heapBytes) :
    (s.allocAt nb).w.base.toNat = nb ∧ (s.allocAt nb).w.cap.toNat = 8 * s.params.initBytes := by
  obtain ⟨-, haw, hi, hih, hmax, htop⟩ := inv.params
  exact ⟨word_toNat_of_le haw (by omega), bitCapacity_toNat (by omega)⟩

/-! ## The obligations -/

/-- Settles O46, by the host's next action and, for a packet, by its command. -/
theorem stepKeepsTheInvariant : Obligations.StepKeepsTheInvariant := fun _ _ inv h => inv_step inv h

/-- Settles O41: the state after W.ALLOC is `allocAt` at the drawn base, which the draw puts in the heap region. -/
theorem allocateBindsAGrowableBuffer : Obligations.AllocateBindsAGrowableBuffer := by
  intro s inv
  obtain ⟨hlo, hhi⟩ := placeInHeap_range s.params s.draws (initBytes_le_heapBytes inv)
  obtain ⟨hbase, hcap⟩ := allocAt_buffer inv hhi
  refine ⟨fun hb => requireBound_fail (by simp [hb]) _, fun hb =>
    ⟨(s.allocAt (placeInHeap s.params s.params.initBytes s.draws)).answer .ok 0, Config.freeWord s.draws .wToken,
      requireBound_pass hb _, rfl, hcap, ?_, ?_, fun a ha => read_forget_outside _ ?_⟩⟩
  · rw [answer_w, hbase]
    exact hlo
  · rw [answer_w, hbase]
    exact hhi
  · simp only [inRegion, answer_w, hbase, hcap] at ha
    omega

/-- Settles O6: the packet at the head of the pending list is the one run, and what it decodes to is its meaning. -/
theorem stepRunsTheDecodedCommand : Obligations.StepRunsTheDecodedCommand :=
  fun _ _ _ _ hp hd => (step_command hp).trans (runPacket_ok hd)

end Sys2Proof.Machine
end

section
/-! PROOFS. The statements of 10_state.md: the state after reset, what a step may change of each unit, of `Mem`, of the
release log and of the cursors, and what a command's answer depends on. -/

namespace Sys2Proof.Machine

variable {s t : State}

/-! ## What a successful command does, by its kind

The 22 commands do 12 kinds of things to the state. `exec_effect` says once what each kind does; what a step leaves
unchanged is then one case per kind. -/

inductive CommandKind
  | lendW | allocW | unbindW | seekW | tellW | ensureW | store (width : Nat)
  | lendR | unbindR | seekR | tellR | fetch (width : Nat)

/-- The kind of each command of R84. -/
def commandKind : Instr → CommandKind
  | .wBorrow _ _ | .wOwn _ _ _ => .lendW
  | .wAlloc => .allocW
  | .wUnbind => .unbindW
  | .wSeek _ _ => .seekW
  | .wTell | .wData | .wSize => .tellW
  | .wEnsure _ => .ensureW
  | .wBit _ => .store 1
  | .wUint width _ | .wInt width _ | .wInts width _ => .store width
  | .rBorrow _ _ | .rOwn _ _ _ => .lendR
  | .rUnbind => .unbindR
  | .rSeek _ _ => .seekR
  | .rTell => .tellR
  | .rBit => .fetch 1
  | .rUint width | .rInt width | .rInts width => .fetch width

def CommandKind.ofWriteUnit : CommandKind → Bool
  | .lendW | .allocW | .unbindW | .seekW | .tellW | .ensureW | .store _ => true
  | .lendR | .unbindR | .seekR | .tellR | .fetch _ => false

def CommandKind.touchesMem : CommandKind → Bool
  | .allocW | .unbindW | .ensureW | .store _ => true
  | .lendW | .seekW | .tellW | .lendR | .unbindR | .seekR | .tellR | .fetch _ => false

theorem isWriteCommand_eq (i : Instr) : isWriteCommand i = (commandKind i).ofWriteUnit := by cases i <;> rfl

theorem mayChangeMem_eq (i : Instr) : mayChangeMem i = (commandKind i).touchesMem := by cases i <;> rfl

theorem eq_wUnbind_of_kind {i : Instr} (h : commandKind i = .unbindW) : i = .wUnbind := by
  cases i <;> simp [commandKind] at h ⊢

theorem eq_rUnbind_of_kind {i : Instr} (h : commandKind i = .unbindR) : i = .rUnbind := by
  cases i <;> simp [commandKind] at h ⊢

/-- The state after a successful command of each kind. -/
inductive Effect (s : State) : CommandKind → State → Prop
  | lendW (own : Ownership) (token base nbytes : Word) (draws : Nat) (unbound : s.w.bound = false) :
      Effect s .lendW (({ s.bindW own token base nbytes with draws := draws } : State).answer .ok 0)
  | allocW (newBase : Nat) (unbound : s.w.bound = false) : Effect s .allocW ((s.allocAt newBase).answer .ok 0)
  | unbindW (bound : s.w.bound = true) : Effect s .unbindW (s.unbindW.answer .ok 0)
  | seekW (cur : Word) : Effect s .seekW (({ s with w := { s.w with cur := cur } } : State).answer .ok 0)
  | tellW (v : Word) : Effect s .tellW (s.answer .ok v)
  | ensureW (v : Word) : Effect s .ensureW (s.answer .ok v)
  | growW {bits : Nat} {g : State} (bound : s.w.bound = true) (growable : s.w.variant = .growable)
      (grown : s.grow bits = .ready g) : Effect s .ensureW (g.answer .ok 1)
  | store {width : Nat} {g : State} (mem : Memory) (bound : s.w.bound = true)
      (ready : s.ensureOrFail width = .ready g) :
      Effect s (.store width)
        (({ g with mem := mem, w := { g.w with cur := g.w.cur + BitVec.ofNat 64 width } } : State).answer .ok 0)
  | lendR (own : Ownership) (token base nbytes : Word) (draws : Nat) (unbound : s.r.bound = false) :
      Effect s .lendR (({ s.bindR own token base nbytes with draws := draws } : State).answer .ok 0)
  | unbindR (bound : s.r.bound = true) : Effect s .unbindR (s.unbindR.answer .ok 0)
  | seekR (cur : Word) : Effect s .seekR (({ s with r := { s.r with cur := cur } } : State).answer .ok 0)
  | tellR (v : Word) : Effect s .tellR (s.answer .ok v)
  | fetch {width : Nat} (v : Word) (fits : s.r.cur.toNat + width ≤ s.r.cap.toNat) :
      Effect s (.fetch width) ((s.advanceR width).answer .ok v)

theorem advance_split {width : Nat} (cur : Word) (h : 1 ≤ width) :
    cur + 1#64 + BitVec.ofNat 64 (width - 1) = cur + BitVec.ofNat 64 width := by
  rw [BitVec.add_assoc, ← BitVec.ofNat_add, show 1 + (width - 1) = width by omega]

theorem effect_fieldStore {g : State} {width : Nat} (hb : s.w.bound = true) (hg : s.ensureOrFail width = .ready g)
    (v : Word) : Effect s (.store width) ((g.writeFieldRaw v width).answer .ok 0) := .store (g := g) _ hb hg

/-- A sign bit and the magnitude behind it advance the cursor as one field does (R136). -/
theorem effect_signedStore {g : State} {width : Nat} (hw : 1 ≤ width) (hb : s.w.bound = true)
    (hg : s.ensureOrFail width = .ready g) (sign : Bool) (mag : Word) :
    Effect s (.store width) (((g.writeBitRaw sign).writeFieldRaw mag (width - 1)).answer .ok 0) := by
  have h := Effect.store ((g.writeBitRaw sign).writeFieldRaw mag (width - 1)).mem hb hg
  rwa [← advance_split g.w.cur hw] at h

/-- Everything a command that answers can do: fail, or the effect of its kind. -/
theorem exec_effect {i : Instr} (h : exec i s = .next t) :
    Failed (argsLegal i) s t ∨ Effect s (commandKind i) t := by
  cases i with
  | wBorrow => exact (wBorrow_next h).imp_right fun ⟨hb, _, ht⟩ => ht ▸ .lendW _ _ _ _ _ hb
  | wOwn => exact (wOwn_next h).imp_right fun ⟨hb, _, ht⟩ => ht ▸ .lendW _ _ _ _ s.draws hb
  | wAlloc => exact (wAlloc_next h).imp_right fun ⟨hb, ht⟩ => ht ▸ .allocW _ hb
  | wUnbind => exact (wUnbind_next h).imp_right fun ⟨hb, ht⟩ => ht ▸ .unbindW hb
  | wSeek => exact (wSeek_next h).imp_right fun ⟨_, _, ht⟩ => ht ▸ .seekW _
  | wTell => exact (wTell_next h).imp_right fun ⟨_, ht⟩ => ht ▸ .tellW _
  | wData => exact (wData_next h).imp_right fun ⟨_, ht⟩ => ht ▸ .tellW _
  | wSize => exact (wSize_next h).imp_right fun ⟨_, ht⟩ => ht ▸ .tellW _
  | wEnsure =>
    rcases wEnsure_next h with hf | ⟨-, -, rfl⟩ | ⟨hb, hv, g, hg, rfl⟩
    · exact .inl hf
    · exact .inr (.ensureW _)
    · exact .inr (.growW hb hv hg)
  | wBit => exact (wBit_next h).imp_right fun ⟨_, hb, _, hg, ht⟩ => ht ▸ effect_fieldStore hb hg _
  | wUint => exact (wUint_next h).imp_right fun ⟨_, hb, _, hg, ht⟩ => ht ▸ effect_fieldStore hb hg _
  | wInt => exact (wInt_next h).imp_right fun ⟨_, hb, _, hg, ht⟩ => ht ▸ effect_fieldStore hb hg _
  | wInts =>
    exact (wInts_next h).imp_right fun ⟨hl, hb, _, hg, ht⟩ =>
      ht ▸ effect_signedStore (widthLegal_iff.1 hl).1 hb hg _ _
  | rBorrow => exact (rBorrow_next h).imp_right fun ⟨hb, _, ht⟩ => ht ▸ .lendR _ _ _ _ _ hb
  | rOwn => exact (rOwn_next h).imp_right fun ⟨hb, _, ht⟩ => ht ▸ .lendR _ _ _ _ s.draws hb
  | rUnbind => exact (rUnbind_next h).imp_right fun ⟨hb, ht⟩ => ht ▸ .unbindR hb
  | rSeek => exact (rSeek_next h).imp_right fun ⟨_, _, ht⟩ => ht ▸ .seekR _
  | rTell => exact (rTell_next h).imp_right fun ⟨_, ht⟩ => ht ▸ .tellR _
  | rBit => exact (rBit_next h).imp_right fun ⟨_, hf, ht⟩ => ht ▸ .fetch _ hf
  | rUint => exact (rUint_next h).imp_right fun ⟨_, _, hf, ht⟩ => ht ▸ .fetch _ hf
  | rInt => exact (rInt_next h).imp_right fun ⟨_, _, hf, ht⟩ => ht ▸ .fetch _ hf
  | rInts => exact (rInts_next h).imp_right fun ⟨_, _, hf, ht⟩ => ht ▸ .fetch _ hf

/-! ## The frames: the other unit, `Mem`, the parameters (R25, R50, R59) -/

/-- What no command of `kind` changes. -/
structure EffectFrame (kind : CommandKind) (s t : State) : Prop where
  r : kind.ofWriteUnit = true → t.r = s.r
  w : kind.ofWriteUnit = false → t.w = s.w
  mem : kind.touchesMem = false → t.mem = s.mem
  params : t.params = s.params
  pending : t.pending = s.pending

theorem answer_frame (kind : CommandKind) (s : State) (st : Status) (v : Word) : EffectFrame kind s (s.answer st v) :=
  ⟨fun _ => rfl, fun _ => rfl, fun _ => rfl, rfl, rfl⟩

theorem effect_frame {kind : CommandKind} (h : Effect s kind t) : EffectFrame kind s t := by
  cases h with
  | tellW | ensureW | tellR => exact answer_frame _ s _ _
  | growW _ _ grown =>
    have f := grow_frame grown
    exact ⟨fun _ => f.r, nofun, nofun, f.params, f.pending⟩
  | store _ _ ready =>
    have f := ensureOrFail_frame ready
    exact ⟨fun _ => f.r, nofun, nofun, f.params, f.pending⟩
  | unbindW => exact ⟨fun _ => unbindW_r s, nofun, nofun, unbindW_params s, unbindW_pending s⟩
  | unbindR => exact ⟨nofun, fun _ => unbindR_w s, fun _ => unbindR_mem s, unbindR_params s, unbindR_pending s⟩
  | lendW | seekW => exact ⟨fun _ => rfl, nofun, fun _ => rfl, rfl, rfl⟩
  | allocW => exact ⟨fun _ => rfl, nofun, nofun, rfl, rfl⟩
  | lendR | seekR | fetch => exact ⟨nofun, fun _ => rfl, fun _ => rfl, rfl, rfl⟩

theorem exec_frame {i : Instr} (h : exec i s = .next t) : EffectFrame (commandKind i) s t := by
  rcases exec_effect h with ⟨st, -, -, rfl⟩ | h
  · exact answer_frame _ s st 0
  · exact effect_frame h

/-! ## The release log (R187) -/

/-- The release events of an unbind of the Write Unit. -/
def State.releasedW (s : State) : List ReleaseEvent :=
  match s.w.variant, s.w.own with
  | .fixed, .owned => [⟨s.w.token, s.w.base, s.w.cap.toNat / 8⟩]
  | .fixed, .borrowed | .growable, _ => []

/-- The release events of an unbind of the Read Unit. -/
def State.releasedR (s : State) : List ReleaseEvent :=
  match s.r.own with
  | .owned => [⟨s.r.token, s.r.base, s.r.cap.toNat / 8⟩]
  | .borrowed => []

theorem disposeW_relLog (s : State) : s.disposeW.relLog = s.relLog ++ s.releasedW := by
  cases hv : s.w.variant with
  | fixed => cases ho : s.w.own <;> simp [State.disposeW, State.releasedW, State.release, hv, ho]
  | growable => simp [State.disposeW, State.releasedW, hv]

theorem disposeR_relLog (s : State) : s.disposeR.relLog = s.relLog ++ s.releasedR := by
  cases ho : s.r.own <;> simp [State.disposeR, State.releasedR, State.release, ho]

theorem releasedW_of_ne_nil (h : s.releasedW ≠ []) :
    s.w.variant = .fixed ∧ s.w.own = .owned ∧ s.releasedW = [⟨s.w.token, s.w.base, s.w.cap.toNat / 8⟩] := by
  cases hv : s.w.variant <;> cases ho : s.w.own <;> simp [State.releasedW, hv, ho] at h ⊢

theorem releasedR_of_ne_nil (h : s.releasedR ≠ []) :
    s.r.own = .owned ∧ s.releasedR = [⟨s.r.token, s.r.base, s.r.cap.toNat / 8⟩] := by
  cases ho : s.r.own <;> simp [State.releasedR, ho] at h ⊢

/-- A command leaves the release log, or it unbound a unit and the log grew by that unit's events. -/
theorem effect_relLog {kind : CommandKind} (h : Effect s kind t) :
    t.relLog = s.relLog ∨ (kind = .unbindW ∧ s.w.bound = true ∧ t.relLog = s.relLog ++ s.releasedW) ∨
      (kind = .unbindR ∧ s.r.bound = true ∧ t.relLog = s.relLog ++ s.releasedR) := by
  cases h with
  | unbindW bound => exact .inr (.inl ⟨rfl, bound, disposeW_relLog s⟩)
  | unbindR bound => exact .inr (.inr ⟨rfl, bound, disposeR_relLog s⟩)
  | growW _ _ grown => exact .inl (grow_frame grown).relLog
  | store _ _ ready => exact .inl (ensureOrFail_frame ready).relLog
  | lendW | allocW | seekW | tellW | ensureW | lendR | seekR | tellR | fetch => exact .inl rfl

theorem exec_relLog {i : Instr} (h : exec i s = .next t) (hne : t.relLog ≠ s.relLog) :
    (i = .wUnbind ∧ s.w.bound = true ∧ s.releasedW ≠ [] ∧ t.relLog = s.relLog ++ s.releasedW) ∨
      (i = .rUnbind ∧ s.r.bound = true ∧ s.releasedR ≠ [] ∧ t.relLog = s.relLog ++ s.releasedR) := by
  rcases exec_effect h with ⟨st, -, -, rfl⟩ | h
  · exact absurd rfl hne
  · rcases effect_relLog h with hs | ⟨hk, hb, hs⟩ | ⟨hk, hb, hs⟩
    · exact absurd hs hne
    · exact .inl ⟨eq_wUnbind_of_kind hk, hb, fun e => hne (by rw [hs, e, List.append_nil]), hs⟩
    · exact .inr ⟨eq_rUnbind_of_kind hk, hb, fun e => hne (by rw [hs, e, List.append_nil]), hs⟩

/-! ## The bindings (R24 (e), R26 to R29) -/

/-- What R24 (e) keeps of a Write Unit that stays bound. -/
def SinkKept (u v : WriteUnit) : Prop :=
  v.variant = u.variant ∧ v.own = u.own ∧ v.token = u.token ∧
    (u.variant = .fixed → v.base = u.base ∧ v.cap = u.cap) ∧ ∃ k, v.cap.toNat = u.cap.toNat * 2 ^ k

/-- What R24 (e) keeps of a Read Unit that stays bound. -/
def ReaderKept (u v : ReadUnit) : Prop := v.own = u.own ∧ v.token = u.token ∧ v.base = u.base ∧ v.cap = u.cap

/-- Every unit that is bound in both states keeps its binding. -/
def BindingsKept (s t : State) : Prop :=
  (s.w.bound = true → t.w.bound = true → SinkKept s.w t.w) ∧ (s.r.bound = true → t.r.bound = true → ReaderKept s.r t.r)

/-- A cursor is no part of the binding. -/
theorem sinkKept_cursor (u : WriteUnit) (c : Word) : SinkKept u { u with cur := c } :=
  ⟨rfl, rfl, rfl, fun _ => ⟨rfl, rfl⟩, 0, by simp⟩

theorem readerKept_cursor (u : ReadUnit) (c : Word) : ReaderKept u { u with cur := c } := ⟨rfl, rfl, rfl, rfl⟩

theorem bindingsKept_of_units (hw : t.w = s.w) (hr : t.r = s.r) : BindingsKept s t := by
  rw [BindingsKept, hw, hr]
  exact ⟨fun _ _ => sinkKept_cursor s.w s.w.cur, fun _ _ => readerKept_cursor s.r s.r.cur⟩

theorem sinkKept_grow {g : State} {n : Nat} (inv : s.Inv) (hb : s.w.bound = true) (hv : s.w.variant = .growable)
    (h : s.grow n = .ready g) : SinkKept s.w g.w := by
  rcases grow_answers s n with ⟨-, h'⟩ | ⟨k, -, hk, h'⟩ | h' | h' <;> rw [h] at h' <;> cases h'
  · exact sinkKept_cursor s.w s.w.cur
  · have hlen := (growTo_grownBy inv hb hv hk).length
    refine ⟨rfl, rfl, rfl, fun hf => absurd hf (by simp [hv]), k, ?_⟩
    rw [hlen, ← mul_assoc, Nat.mul_div_cancel' (Nat.dvd_of_mod_eq_zero inv.wCap)]

theorem sinkKept_ensureOrFail {g : State} {n : Nat} (inv : s.Inv) (hb : s.w.bound = true)
    (h : s.ensureOrFail n = .ready g) : SinkKept s.w g.w := by
  rcases ensureOrFail_answers s n with ⟨-, -, h'⟩ | ⟨k, hv, -, -, hg, h'⟩ | ⟨st, -, -, h'⟩ | h' <;> rw [h] at h' <;>
    cases h'
  · exact sinkKept_cursor s.w s.w.cur
  · exact sinkKept_grow inv hb hv hg

theorem effect_bindingsKept {kind : CommandKind} (inv : s.Inv) (h : Effect s kind t) : BindingsKept s t := by
  have reader {u : ReadUnit} (e : u = s.r) : ReaderKept s.r u := e ▸ readerKept_cursor s.r s.r.cur
  have sink {u : WriteUnit} (e : u = s.w) : SinkKept s.w u := e ▸ sinkKept_cursor s.w s.w.cur
  cases h with
  | tellW | ensureW | tellR => exact bindingsKept_of_units rfl rfl
  | lendW _ _ _ _ _ unbound => exact ⟨fun hb => by simp [unbound] at hb, fun _ _ => reader rfl⟩
  | allocW _ unbound => exact ⟨fun hb => by simp [unbound] at hb, fun _ _ => reader rfl⟩
  | unbindW => exact ⟨nofun, fun _ _ => reader (unbindW_r s)⟩
  | seekW cur => exact ⟨fun _ _ => sinkKept_cursor s.w cur, fun _ _ => reader rfl⟩
  | growW bound growable grown =>
    have kept := sinkKept_grow inv bound growable grown
    exact ⟨fun _ _ => kept, fun _ _ => reader (grow_frame grown).r⟩
  | store _ bound ready =>
    have kept := sinkKept_ensureOrFail inv bound ready
    exact ⟨fun _ _ => kept, fun _ _ => reader (ensureOrFail_frame ready).r⟩
  | lendR _ _ _ _ _ unbound => exact ⟨fun _ _ => sink rfl, fun hb => by simp [unbound] at hb⟩
  | unbindR => exact ⟨fun _ _ => sink (unbindR_w s), nofun⟩
  | seekR cur => exact ⟨fun _ _ => sink rfl, fun _ _ => readerKept_cursor s.r cur⟩
  | fetch => exact ⟨fun _ _ => sink rfl, fun _ _ => readerKept_cursor s.r _⟩

theorem exec_bindingsKept {i : Instr} (inv : s.Inv) (h : exec i s = .next t) : BindingsKept s t := by
  rcases exec_effect h with ⟨st, -, -, rfl⟩ | h
  · exact bindingsKept_of_units rfl rfl
  · exact effect_bindingsKept inv h

theorem runPacket_bindingsKept {p : Packet} (inv : s.Inv) (h : runPacket p s = .next t) : BindingsKept s t := by
  rcases runPacket_next h with ⟨e, -, rfl⟩ | ⟨i, -, hi⟩
  · exact bindingsKept_of_units rfl rfl
  · exact exec_bindingsKept inv hi

/-! ## The cursors (R25) -/

/-- A command that answers OK had its effect. -/
theorem effect_of_ok {i : Instr} {v : Word} (h : exec i s = .next t) (hok : t.responses = s.responses ++ [⟨.ok, v⟩]) :
    Effect s (commandKind i) t := by
  refine (exec_effect h).resolve_left ?_
  rintro ⟨st, hst, -, rfl⟩
  simp at hok
  exact hst hok.1

theorem effect_lendW_cur (h : Effect s .lendW t) : t.w.cur = 0 := by cases h; rfl

theorem effect_allocW_cur (h : Effect s .allocW t) : t.w.cur = 0 := by cases h; rfl

theorem effect_lendR_cur (h : Effect s .lendR t) : t.r.cur = 0 := by cases h; rfl

theorem effect_tellW_cur (h : Effect s .tellW t) : t.w.cur = s.w.cur := by cases h; rfl

theorem effect_tellR_cur (h : Effect s .tellR t) : t.r.cur = s.r.cur := by cases h; rfl

theorem effect_ensureW_cur (h : Effect s .ensureW t) : t.w.cur = s.w.cur := by
  cases h with
  | ensureW => rfl
  | growW _ _ grown => exact (grow_frame grown).cur

/-- The field fits the buffer the check made ready, so the cursor does not wrap (R119). -/
theorem effect_store_cur {width : Nat} (inv : s.Inv) (h : Effect s (.store width) t) :
    t.w.cur.toNat = s.w.cur.toNat + width := by
  cases h with
  | store _ bound ready =>
    rw [← (ensureOrFail_frame ready).cur]
    exact advance_toNat (ensureOrFail_inv inv bound ready).2

theorem effect_fetch_cur {width : Nat} (h : Effect s (.fetch width) t) : t.r.cur.toNat = s.r.cur.toNat + width := by
  cases h with
  | fetch _ fits => exact advance_toNat fits

/-- The bind commands of the Write Unit, by their kind. -/
theorem bindW_kind {i : Instr} (hw : isWriteCommand i = true) (hb : isBindCommand i = true) :
    commandKind i = .lendW ∨ commandKind i = .allocW := by
  cases i <;> simp [commandKind, isWriteCommand, isBindCommand] at hw hb ⊢

theorem bindR_kind {i : Instr} (hw : isWriteCommand i = false) (hb : isBindCommand i = true) :
    commandKind i = .lendR := by
  cases i <;> simp [commandKind, isWriteCommand, isBindCommand] at hw hb ⊢

/-! ## Reads of equal stream bits (R54) -/

/-- The next `width` stream bits at the two readers' cursors agree. -/
def SameField (s s' : State) (width : Nat) : Prop :=
  ∀ k < width, sbit s.mem s.r.base.toNat (s.r.cur.toNat + k) = sbit s'.mem s'.r.base.toNat (s'.r.cur.toNat + k)

theorem readBits_congr {m m' : Memory} {base base' n p p' : Nat}
    (h : ∀ k < n, sbit m base (p + k) = sbit m' base' (p' + k)) (acc : Word) :
    readBits m base n p acc = readBits m' base' n p' acc := by
  apply BitVec.eq_of_getLsbD_eq
  intro i hi
  rw [readBits_bit m base n p acc hi, readBits_bit m' base' n p' acc hi]
  split
  · exact h _ (by omega)
  · rfl

section
variable {s' t' : State} {width : Nat}

theorem readFieldRaw_congr (h : SameField s s' width) : (s.readFieldRaw width).1 = (s'.readFieldRaw width).1 :=
  readBits_congr h 0

theorem readBitRaw_congr (hw : 1 ≤ width) (h : SameField s s' width) : s.readBitRaw.1 = s'.readBitRaw.1 := by
  have first : sbit s.mem s.r.base.toNat s.r.cur.toNat = sbit s'.mem s'.r.base.toNat s'.r.cur.toNat := h 0 hw
  rw [readBitRaw_value, readBitRaw_value, first]

theorem advanceR_one_cur (hw : 1 ≤ width) (hf : s.r.cur.toNat + width ≤ s.r.cap.toNat) :
    (s.advanceR 1).r.cur.toNat = s.r.cur.toNat + 1 :=
  advance_toNat (cap := s.r.cap) (by omega)

/-- The rest of the field, behind the sign bit. -/
theorem SameField.rest (h : SameField s s' width) (hw : 1 ≤ width) (hf : s.r.cur.toNat + width ≤ s.r.cap.toNat)
    (hf' : s'.r.cur.toNat + width ≤ s'.r.cap.toNat) : SameField (s.advanceR 1) (s'.advanceR 1) (width - 1) := by
  intro k hk
  rw [advanceR_one_cur hw hf, advanceR_one_cur hw hf', Nat.add_assoc, Nat.add_assoc, Nat.add_comm 1 k]
  exact h (k + 1) (by omega)

/-- A command that moved the reader's cursor did not fail (R204). -/
theorem not_failed_of_cur_moved {legal : Bool} (h : t.r.cur ≠ s.r.cur) : ¬Failed legal s t := by
  rintro ⟨st, -, -, rfl⟩
  exact h rfl

theorem answer_getLast? (s : State) (st : Status) (v : Word) : (s.answer st v).responses.getLast? = some ⟨st, v⟩ :=
  List.getLast?_concat

/-- Two runs of one read command that moved the cursor give one response if their results agree. -/
theorem read_congr {legal : Bool} {k : State → State} (v : State → Word)
    (h : s.enterR legal (s.settle (s.checkOrFail width) fun g => (k g).respond (v g)) = .next t)
    (h' : s'.enterR legal (s'.settle (s'.checkOrFail width) fun g => (k g).respond (v g)) = .next t')
    (hc : t.r.cur ≠ s.r.cur) (hc' : t'.r.cur ≠ s'.r.cur)
    (hv : legal = true → s.r.cur.toNat + width ≤ s.r.cap.toNat → s'.r.cur.toNat + width ≤ s'.r.cap.toNat → v s = v s') :
    t.responses.getLast? = t'.responses.getLast? := by
  obtain ⟨hl, -, hf, rfl⟩ := (read_next h).resolve_left (not_failed_of_cur_moved hc)
  obtain ⟨-, -, hf', rfl⟩ := (read_next h').resolve_left (not_failed_of_cur_moved hc')
  rw [answer_getLast?, answer_getLast?, hv hl hf hf']

/-- The sign bit and the rest of the field, as R.INT and R.INTS read them (R164, R165). -/
theorem signAndRest_congr (h : SameField s s' width) (hl : widthLegal width = true)
    (hf : s.r.cur.toNat + width ≤ s.r.cap.toNat) (hf' : s'.r.cur.toNat + width ≤ s'.r.cap.toNat) :
    s.readBitRaw.1 = s'.readBitRaw.1 ∧
      (s.readBitRaw.2.readFieldRaw (width - 1)).1 = (s'.readBitRaw.2.readFieldRaw (width - 1)).1 := by
  have hw : 1 ≤ width := (widthLegal_iff.1 hl).1
  exact ⟨readBitRaw_congr hw h, readFieldRaw_congr (h.rest hw hf hf')⟩

end

/-! ## The outputs are never read (R20, R33)

`Blind k s`: run with other logs, `k` does what it does from `s` and appends the same. Each check and each ending of a
command is blind if what follows it is. -/

/-- The state with other earlier responses and another release log. -/
def State.withLogs (s : State) (answers : List Response) (log : List ReleaseEvent) : State :=
  { s with responses := answers, relLog := log }

/-- The same on what a capacity check makes ready. -/
def Checked.withLogs (c : Checked) (answers : List Response) (log : List ReleaseEvent) : Checked :=
  match c with
  | .ready s => .ready (s.withLogs answers log)
  | .short status => .short status
  | .broken fault => .broken fault

/-- `k` reads neither log, and appends one response and some events to them (R204, R187). -/
def Blind (k : State → Outcome) (s : State) : Prop :=
  ∀ t, k s = .next t → ∃ (a : Response) (events : List ReleaseEvent),
    t.responses = s.responses ++ [a] ∧ t.relLog = s.relLog ++ events ∧
    ∀ answers log, k (s.withLogs answers log) = .next (t.withLogs (answers ++ [a]) (log ++ events))

/-- To show a meaning blind it may be replaced by one that agrees with it whatever the logs hold. -/
theorem Blind.of_eq {k k' : State → Outcome} (h : Blind k' s)
    (he : ∀ answers log, k (s.withLogs answers log) = k' (s.withLogs answers log)) : Blind k s := by
  intro t ht
  obtain ⟨a, events, hr, hl, hk⟩ := h t ((he s.responses s.relLog).symm.trans ht)
  exact ⟨a, events, hr, hl, fun answers log => (he answers log).trans (hk answers log)⟩

theorem blind_fail (s : State) (st : Status) : Blind (fun s => s.fail st) s := by
  rintro t ht
  obtain rfl := next_inj.1 ht
  exact ⟨⟨st, 0⟩, [], rfl, (List.append_nil _).symm, fun answers log => by rw [List.append_nil]; rfl⟩

/-- An effect that emits `events` and gives the response `v`. -/
theorem blind_release {f : State → State} {v : State → Word} (events : List ReleaseEvent)
    (hr : (f s).responses = s.responses) (hl : (f s).relLog = s.relLog ++ events)
    (hf : ∀ answers log, f (s.withLogs answers log) = (f s).withLogs answers (log ++ events))
    (hv : ∀ answers log, v (s.withLogs answers log) = v s) : Blind (fun s => (f s).respond (v s)) s := by
  intro t ht
  obtain rfl := respond_next ht
  refine ⟨⟨.ok, v s⟩, events, by rw [answer_responses, hr], hl, fun answers log => ?_⟩
  simp only [hf, hv]
  rfl

/-- An effect that emits no release event. -/
theorem blind_respond (f : State → State) (v : State → Word) (hr : (f s).responses = s.responses)
    (hl : (f s).relLog = s.relLog) (hf : ∀ answers log, f (s.withLogs answers log) = (f s).withLogs answers log)
    (hv : ∀ answers log, v (s.withLogs answers log) = v s) : Blind (fun s => (f s).respond (v s)) s :=
  blind_release [] hr (by rw [hl, List.append_nil]) (fun answers log => by rw [hf, List.append_nil]) hv

/-- A command that answers `v` and does nothing else. -/
theorem blind_told (v : State → Word) (hv : ∀ answers log, v (s.withLogs answers log) = v s) :
    Blind (fun s => s.respond (v s)) s := blind_respond id v rfl rfl (fun _ _ => rfl) hv

/-- A command that has an effect and answers 0. -/
theorem blind_done (f : State → State) (hr : (f s).responses = s.responses) (hl : (f s).relLog = s.relLog)
    (hf : ∀ answers log, f (s.withLogs answers log) = (f s).withLogs answers log) :
    Blind (fun s => (f s).respond 0) s := blind_respond f (fun _ => 0) hr hl hf fun _ _ => rfl

theorem Blind.requireLegal {k : State → Outcome} (legal : Bool) (h : Blind k s) :
    Blind (fun s => s.requireLegal legal (k s)) s := by
  cases legal
  · exact blind_fail s .illegalCommand
  · exact h

theorem Blind.requireBound {k : State → Outcome} {b : State → Bool} (want : Bool)
    (hb : ∀ answers log, b (s.withLogs answers log) = b s) (h : Blind k s) :
    Blind (fun s => s.requireBound (b s) want (k s)) s := by
  by_cases hw : b s = want
  · exact h.of_eq fun answers log => requireBound_pass ((hb answers log).trans hw) _
  · exact (blind_fail s .badBindState).of_eq fun answers log =>
      requireBound_fail (fun e => hw ((hb answers log).symm.trans e)) _

theorem Blind.requireRegion {k : State → Outcome} (base nbytes : Word) (h : Blind k s) :
    Blind (fun s => s.requireRegion base nbytes (k s)) s := by
  by_cases hr : regionOk s.params base nbytes = true
  · exact h.of_eq fun _ _ => if_pos hr
  · exact (blind_fail s .badRegion).of_eq fun _ _ => if_neg hr

theorem Blind.enterW {k : State → Outcome} (legal : Bool) (h : Blind k s) : Blind (fun s => s.enterW legal (k s)) s :=
  (h.requireBound true fun _ _ => rfl).requireLegal legal

theorem Blind.enterR {k : State → Outcome} (legal : Bool) (h : Blind k s) : Blind (fun s => s.enterR legal (k s)) s :=
  (h.requireBound true fun _ _ => rfl).requireLegal legal

/-- A capacity check that does not see the logs, before a meaning that is blind on what the check makes ready. -/
theorem Blind.settle {c : State → Checked} {k : State → Outcome}
    (hc : ∀ answers log, c (s.withLogs answers log) = (c s).withLogs answers log)
    (h : ∀ g, c s = .ready g → g.responses = s.responses ∧ g.relLog = s.relLog ∧ Blind k g) :
    Blind (fun s => s.settle (c s) k) s := by
  cases hs : c s with
  | ready g =>
    obtain ⟨hr, hl, hk⟩ := h g hs
    intro t ht
    simp only [hs, settle_ready] at ht
    obtain ⟨a, events, hta, hte, hrun⟩ := hk t ht
    exact ⟨a, events, hr ▸ hta, hl ▸ hte, fun answers log => by
      simp only [hc, hs, Checked.withLogs, settle_ready, hrun]⟩
  | short st =>
    exact (blind_fail s st).of_eq fun answers log => by simp only [hc, hs, Checked.withLogs]; rfl
  | broken fault =>
    intro t ht
    simp [hs, State.settle] at ht

theorem guardAccess_withLogs (s : State) (base cur : Word) (n : Nat) (answers : List Response)
    (log : List ReleaseEvent) :
    (s.withLogs answers log).guardAccess base cur n = (s.guardAccess base cur n).withLogs answers log := by
  simp only [State.guardAccess, apply_ite (Checked.withLogs · answers log)]
  rfl

theorem grow_withLogs (s : State) (n : Nat) (answers : List Response) (log : List ReleaseEvent) :
    (s.withLogs answers log).grow n = (s.grow n).withLogs answers log := by
  simp only [State.grow, apply_ite (Checked.withLogs · answers log)]
  rfl

theorem checkOrFail_withLogs (s : State) (n : Nat) (answers : List Response) (log : List ReleaseEvent) :
    (s.withLogs answers log).checkOrFail n = (s.checkOrFail n).withLogs answers log := by
  simp only [State.checkOrFail, apply_ite (Checked.withLogs · answers log), guardAccess_withLogs]
  rfl

theorem ensureOrFail_withLogs (s : State) (n : Nat) (answers : List Response) (log : List ReleaseEvent) :
    (s.withLogs answers log).ensureOrFail n = (s.ensureOrFail n).withLogs answers log := by
  have hw : (s.withLogs answers log).w = s.w := rfl
  cases hv : s.w.variant with
  | fixed =>
    simp only [State.ensureOrFail, hw, hv, apply_ite (Checked.withLogs · answers log), guardAccess_withLogs]
    rfl
  | growable =>
    simp only [State.ensureOrFail, hw, hv, grow_withLogs]
    cases s.grow n with
    | ready g => exact guardAccess_withLogs g g.w.base g.w.cur n answers log
    | short | broken => rfl

theorem checkOrFail_ready {g : State} {n : Nat} (h : s.checkOrFail n = .ready g) : g = s := by
  rcases checkOrFail_answers s n with ⟨-, h'⟩ | h' | h' <;> rw [h] at h' <;> cases h'
  rfl

/-- The shape of the four write commands. -/
theorem blind_write (legal : Bool) (n : Nat) (f : State → State) (hr : ∀ g, (f g).responses = g.responses)
    (hl : ∀ g, (f g).relLog = g.relLog)
    (hf : ∀ g answers log, f (State.withLogs g answers log) = (f g).withLogs answers log) :
    Blind (fun s => s.enterW legal (s.settle (s.ensureOrFail n) fun g => (f g).respond 0)) s := by
  refine .enterW legal (.settle (ensureOrFail_withLogs s n) fun g hg => ?_)
  have frame := ensureOrFail_frame hg
  exact ⟨frame.responses, frame.relLog, blind_done f (hr g) (hl g) (hf g)⟩

/-- The shape of the four read commands. -/
theorem blind_read (legal : Bool) (n : Nat) (f : State → State) (v : State → Word)
    (hr : (f s).responses = s.responses) (hl : (f s).relLog = s.relLog)
    (hf : ∀ answers log, f (s.withLogs answers log) = (f s).withLogs answers log)
    (hv : ∀ answers log, v (s.withLogs answers log) = v s) :
    Blind (fun s => s.enterR legal (s.settle (s.checkOrFail n) fun g => (f g).respond (v g))) s := by
  refine .enterR legal (.settle (checkOrFail_withLogs s n) fun g hg => ?_)
  obtain rfl := checkOrFail_ready hg
  exact ⟨rfl, rfl, blind_respond f v hr hl hf hv⟩

theorem blind_execWEnsure (bits : Word) (s : State) : Blind (execWEnsure bits) s := by
  refine .enterW true ?_
  cases hv : s.w.variant with
  | fixed =>
    refine (blind_told (fun s => if fits s.w.cur s.w.cap bits.toNat then 1 else 0) fun _ _ => rfl).of_eq
      fun answers log => ?_
    simp only [State.withLogs, hv]
  | growable =>
    refine (Blind.settle (c := fun s => s.grow bits.toNat) (k := fun g => g.respond 1) (grow_withLogs s _) fun g hg =>
      ⟨(grow_frame hg).responses, (grow_frame hg).relLog, blind_told (fun _ => 1) fun _ _ => rfl⟩).of_eq
      fun answers log => ?_
    simp only [State.withLogs, hv]

theorem unbindW_withLogs (s : State) (answers : List Response) (log : List ReleaseEvent) :
    (s.withLogs answers log).unbindW = s.unbindW.withLogs answers (log ++ s.releasedW) := by
  cases hv : s.w.variant with
  | fixed =>
    cases ho : s.w.own <;> simp [State.unbindW, State.disposeW, State.releasedW, State.release, State.withLogs,
      State.drawn, hv, ho]
  | growable => simp [State.unbindW, State.disposeW, State.releasedW, State.withLogs, State.drawn, hv]

theorem unbindR_withLogs (s : State) (answers : List Response) (log : List ReleaseEvent) :
    (s.withLogs answers log).unbindR = s.unbindR.withLogs answers (log ++ s.releasedR) := by
  cases ho : s.r.own <;> simp [State.unbindR, State.disposeR, State.releasedR, State.release, State.withLogs,
    State.drawn, ho]

theorem blind_exec (i : Instr) (s : State) : Blind (exec i) s := by
  cases i with
  | wBorrow base nbytes =>
    exact .requireBound false (fun _ _ => rfl) (.requireRegion base nbytes (blind_done
      (fun s => (s.bindW .borrowed (Config.freeWord s.draws .wToken) base nbytes).drawn) rfl rfl fun _ _ => rfl))
  | wOwn base nbytes token =>
    exact .requireBound false (fun _ _ => rfl) (.requireRegion base nbytes (blind_done
      (fun s => s.bindW .owned token base nbytes) rfl rfl fun _ _ => rfl))
  | wAlloc =>
    exact .requireBound false (fun _ _ => rfl) (blind_done
      (fun s => s.allocAt (placeInHeap s.params s.params.initBytes s.draws)) rfl rfl fun _ _ => rfl)
  | wUnbind =>
    exact .requireBound true (fun _ _ => rfl) (blind_release (v := fun _ => 0) s.releasedW (unbindW_responses s)
      (disposeW_relLog s) (unbindW_withLogs s) fun _ _ => rfl)
  | wSeek origin offset =>
    exact .enterW _ (blind_done
      (fun s => { s with w := { s.w with cur := seekTarget origin offset s.w.cur s.w.cap } }) rfl rfl fun _ _ => rfl)
  | wTell => exact .enterW true (blind_told (fun s => s.w.cur) fun _ _ => rfl)
  | wEnsure bits => exact blind_execWEnsure bits s
  | wBit bit =>
    exact blind_write _ 1 (fun g => g.writeBitRaw (bit.getLsbD 0)) (fun _ => rfl) (fun _ => rfl) fun _ _ _ => rfl
  | wUint width value | wInt width value =>
    exact blind_write _ width (fun g => g.writeFieldRaw value width) (fun _ => rfl) (fun _ => rfl) fun _ _ _ => rfl
  | wInts width value =>
    exact blind_write _ width (fun g => (g.writeBitRaw (signBit value)).writeFieldRaw (magnitude value) (width - 1))
      (fun _ => rfl) (fun _ => rfl) fun _ _ _ => rfl
  | wData => exact .enterW true (blind_told (fun s => s.w.base) fun _ _ => rfl)
  | wSize => exact .enterW true (blind_told (fun s => BitVec.ofNat 64 (s.w.cap.toNat / 8)) fun _ _ => rfl)
  | rBorrow base nbytes =>
    exact .requireBound false (fun _ _ => rfl) (.requireRegion base nbytes (blind_done
      (fun s => (s.bindR .borrowed (Config.freeWord s.draws .rToken) base nbytes).drawn) rfl rfl fun _ _ => rfl))
  | rOwn base nbytes token =>
    exact .requireBound false (fun _ _ => rfl) (.requireRegion base nbytes (blind_done
      (fun s => s.bindR .owned token base nbytes) rfl rfl fun _ _ => rfl))
  | rUnbind =>
    exact .requireBound true (fun _ _ => rfl) (blind_release (v := fun _ => 0) s.releasedR (unbindR_responses s)
      (disposeR_relLog s) (unbindR_withLogs s) fun _ _ => rfl)
  | rSeek origin offset =>
    exact .enterR _ (blind_done
      (fun s => { s with r := { s.r with cur := seekTarget origin offset s.r.cur s.r.cap } }) rfl rfl fun _ _ => rfl)
  | rTell => exact .enterR true (blind_told (fun s => s.r.cur) fun _ _ => rfl)
  | rBit =>
    exact blind_read true 1 (fun g => g.readBitRaw.2) (fun g => g.readBitRaw.1) rfl rfl (fun _ _ => rfl) fun _ _ => rfl
  | rUint width =>
    exact blind_read _ width (fun g => (g.readFieldRaw width).2) (fun g => (g.readFieldRaw width).1) rfl rfl
      (fun _ _ => rfl) fun _ _ => rfl
  | rInt width =>
    exact blind_read _ width (fun g => (g.readBitRaw.2.readFieldRaw (width - 1)).2)
      (fun g => twosComplementResult g.readBitRaw.1 (g.readBitRaw.2.readFieldRaw (width - 1)).1 width) rfl rfl
      (fun _ _ => rfl) fun _ _ => rfl
  | rInts width =>
    exact blind_read _ width (fun g => (g.readBitRaw.2.readFieldRaw (width - 1)).2)
      (fun g => signMagnitudeResult g.readBitRaw.1 (g.readBitRaw.2.readFieldRaw (width - 1)).1) rfl rfl
      (fun _ _ => rfl) fun _ _ => rfl

/-! ## The host's write and reset (R63, R230) -/

theorem step_write {a : Nat} {v : Byte} {rest : List HostAction} (h : s.pending = .write a v :: rest) :
    step s = ({ s with pending := rest } : State).hostWrite a v := by
  simp only [step, h]

theorem step_reset {rest : List HostAction} (h : s.pending = .reset :: rest) :
    step s = .next ({ s with pending := rest } : State).hostReset := by
  simp only [step, h]

theorem hostWrite_beyond {a : Nat} (h : 2 ^ s.params.aw ≤ a) (v : Byte) : s.hostWrite a v = .fault .noSuchAddress :=
  if_pos h

theorem hostWrite_heap {a : Nat} (h : a < 2 ^ s.params.aw) (hh : inHeap s.params a) (v : Byte) :
    s.hostWrite a v = .refused .hostWroteHeap := by
  rw [State.hostWrite, if_neg (by omega), if_pos hh]

theorem hostWrite_plain {a : Nat} (h : a < 2 ^ s.params.aw) (hh : ¬inHeap s.params a) (v : Byte) :
    s.hostWrite a v = .next { s with mem := s.mem.write a v } := by
  rw [State.hostWrite, if_neg (by omega), if_neg hh]

/-! ## The obligations -/

/-- Settles O35, by the read command: its result is a function of the field's stream bits. -/
theorem readDependsOnItsBitsAlone : Obligations.ReadDependsOnItsBitsAlone := by
  rintro s s' t t' width i (rfl | rfl | rfl | ⟨rfl, rfl⟩) h h' hc hc' hbits
  · exact read_congr (k := fun g => (g.readFieldRaw width).2) (fun g => (g.readFieldRaw width).1) h h' hc hc'
      fun _ _ _ => readFieldRaw_congr hbits
  · refine read_congr (k := fun g => (g.readBitRaw.2.readFieldRaw (width - 1)).2)
      (fun g => twosComplementResult g.readBitRaw.1 (g.readBitRaw.2.readFieldRaw (width - 1)).1 width)
      h h' hc hc' fun hl hf hf' => ?_
    obtain ⟨hsign, hrest⟩ := signAndRest_congr hbits hl hf hf'
    simp only [hsign, hrest]
  · refine read_congr (k := fun g => (g.readBitRaw.2.readFieldRaw (width - 1)).2)
      (fun g => signMagnitudeResult g.readBitRaw.1 (g.readBitRaw.2.readFieldRaw (width - 1)).1)
      h h' hc hc' fun hl hf hf' => ?_
    obtain ⟨hsign, hmag⟩ := signAndRest_congr hbits hl hf hf'
    simp only [hsign, hmag]
  · exact read_congr (legal := true) (k := fun g => g.readBitRaw.2) (fun g => g.readBitRaw.1) h h' hc hc'
      fun _ _ _ => readBitRaw_congr le_rfl hbits

/-- Settles O44: of the host's actions only a packet, of the commands only the two unbinds can change the log. -/
theorem releaseEventsComeFromOwnedUnbindsAlone : Obligations.ReleaseEventsComeFromOwnedUnbindsAlone := by
  intro s t h hne
  rcases step_cases s with ⟨-, hs⟩ | ⟨p, rest, hp, hs⟩ | ⟨a, v, rest, -, hs⟩ | ⟨rest, -, hs⟩ <;> rw [hs] at h
  · exact absurd (next_inj.1 h ▸ rfl) hne
  · refine ⟨p, rest, hp, ?_⟩
    rcases runPacket_next h with ⟨e, -, rfl⟩ | ⟨i, hd, hi⟩
    · exact absurd rfl hne
    · rcases exec_relLog hi hne with ⟨rfl, hb, hrel, ht⟩ | ⟨rfl, hb, hrel, ht⟩
      · obtain ⟨hv, ho, he⟩ := releasedW_of_ne_nil hrel
        exact .inl ⟨hd, hb, hv, ho, he ▸ ht⟩
      · obtain ⟨ho, he⟩ := releasedR_of_ne_nil hrel
        exact .inr ⟨hd, hb, ho, he ▸ ht⟩
  · obtain ⟨-, -, rfl⟩ := hostWrite_next h
    exact absurd rfl hne
  · exact absurd (next_inj.1 h ▸ rfl) hne

/-- Settles O48, by the host's next action: a command keeps the bindings, a reset leaves no unit bound. -/
theorem bindingIsImmutableWhileBound : Obligations.BindingIsImmutableWhileBound := by
  intro s t inv h
  rcases step_cases s with ⟨-, hs⟩ | ⟨p, rest, -, hs⟩ | ⟨a, v, rest, -, hs⟩ | ⟨rest, -, hs⟩ <;> rw [hs] at h
  · obtain rfl := next_inj.1 h
    exact bindingsKept_of_units rfl rfl
  · have kept := runPacket_bindingsKept (inv_pending inv rest) h
    exact kept
  · obtain ⟨-, -, rfl⟩ := hostWrite_next h
    exact bindingsKept_of_units rfl rfl
  · obtain rfl := next_inj.1 h
    exact ⟨nofun, nofun⟩

/-- Settles O49: the frame of the command's kind. -/
theorem unitsDoNotTouchEachOther : Obligations.UnitsDoNotTouchEachOther := by
  intro i s t h
  rw [isWriteCommand_eq, mayChangeMem_eq]
  obtain ⟨hr, hw, hm, hparams, hpending⟩ := exec_frame h
  exact ⟨hr, hw, hm, hparams, hpending⟩

/-- Settles O51: the command that answers OK had the effect of its kind, whose cursor is known. -/
theorem cursorsAdvanceByTheWidth : Obligations.CursorsAdvanceByTheWidth := by
  intro i s t v inv h hok
  have he := effect_of_ok h hok
  refine ⟨fun hw hb => ?_, fun hw hb => effect_lendR_cur (bindR_kind hw hb ▸ he), ?_, ?_, ?_, ?_, ?_, ?_⟩
  · rcases bindW_kind hw hb with hk | hk
    · exact effect_lendW_cur (hk ▸ he)
    · exact effect_allocW_cur (hk ▸ he)
  · rintro bit rfl
    exact effect_store_cur inv he
  · rintro width value (rfl | rfl | rfl) <;> exact effect_store_cur inv he
  · rintro rfl
    exact effect_fetch_cur he
  · rintro width (rfl | rfl | rfl) <;> exact effect_fetch_cur he
  · rintro (rfl | rfl | rfl | ⟨bits, rfl⟩)
    · exact effect_tellW_cur he
    · exact effect_tellW_cur he
    · exact effect_tellW_cur he
    · exact effect_ensureW_cur he
  · rintro rfl
    exact effect_tellR_cur he

/-- Settles O52: every command is blind to the logs. -/
theorem outputsAreNeverRead : Obligations.OutputsAreNeverRead := fun i s => blind_exec i s

/-- Settles O9. -/
theorem powerOnLeavesBothUnitsUnbound : Obligations.PowerOnLeavesBothUnitsUnbound := ⟨rfl, rfl, rfl, fun _ => rfl⟩

/-- Settles O10: the step is `hostReset`. -/
theorem resetUnbindsBothUnits : Obligations.ResetUnbindsBothUnits :=
  fun _ _ h => ⟨_, step_reset h, rfl, rfl, rfl, rfl, rfl, rfl, rfl⟩

/-- Settles O11: the step is `hostWrite`, by where the address lies. -/
theorem hostWriteSetsOneByte : Obligations.HostWriteSetsOneByte := by
  intro s a v rest h
  rw [step_write h]
  have beyond := hostWrite_beyond (s := { s with pending := rest }) (a := a)
  have heap := hostWrite_heap (s := { s with pending := rest }) (a := a)
  have plain := hostWrite_plain (s := { s with pending := rest }) (a := a)
  exact ⟨(beyond · v), (heap · · v), fun ha hh =>
    ⟨_, plain ha hh v, rfl, read_write_same s.mem a v, fun _ hb => read_write_other s.mem v hb⟩⟩

/-- Settles O47: no byte is listed and no unit bound, and the parameters are the standard ones. -/
theorem resetMeetsTheInvariant : Obligations.ResetMeetsTheInvariant where
  params := by decide
  memory := .nil
  listed := nofun
  wBase := by decide
  rBase := by decide
  wCap := rfl
  rCap := rfl
  wRegion := nofun
  rRegion := nofun
  growable := nofun

end Sys2Proof.Machine
end

section
/-! PROOFS. The statements of 20_memory.md: the bytes of `Mem` a command may change, and the source's packing algorithm
against the net effect of a field write. -/

namespace Sys2Proof.Machine

variable {s g t : State}

/-! ## Changes of `Mem` lie in the Write Unit's region (R56, R57) -/

/-- The address lies in the region the Write Unit is bound to. -/
def State.SinkHolds (s : State) (a : Nat) : Prop := s.w.bound = true ∧ inRegion s.w.base s.w.cap a

theorem sinkHolds_writeFieldRaw (g : State) (v : Word) (n a : Nat) :
    g.SinkHolds a ↔ (g.writeFieldRaw v n).SinkHolds a := Iff.rfl

/-- Every byte that differs lies in the Write Unit's region before or after. -/
def Confined (s t : State) : Prop := ∀ a, t.mem.read a ≠ s.mem.read a → s.SinkHolds a ∨ t.SinkHolds a

theorem confined_of_mem_eq (h : t.mem = s.mem) : Confined s t := fun a ha => absurd (by rw [h]) ha

/-- A confined change followed by one that leaves the region where it is. -/
theorem Confined.trans (h : Confined s g) (h' : Confined g t) (kept : ∀ a, g.SinkHolds a ↔ t.SinkHolds a) :
    Confined s t := by
  intro a ha
  rw [← kept a]
  by_cases hg : g.mem.read a = s.mem.read a
  · have hgt : g.SinkHolds a ∨ t.SinkHolds a := h' a (hg ▸ ha)
    exact .inr (hgt.elim id (kept a).2)
  · exact h a hg

/-- A growth event changes the old region and the new one only (R112 step 6). -/
theorem confined_growTo {k : Nat} (inv : s.Inv) (hb : s.w.bound = true) (hv : s.w.variant = .growable)
    (hk : s.w.cap.toNat / 8 * 2 ^ k ≤ s.params.heapBytes) :
    Confined s (s.growTo (placeInHeap s.params (s.w.cap.toNat / 8 * 2 ^ k) s.draws) (s.w.cap.toNat / 8 * 2 ^ k)) := by
  intro a ha
  by_contra hout
  obtain ⟨hold, hnew⟩ := not_or.1 hout
  exact ha ((growTo_grownBy inv hb hv hk).others a (fun h => hold ⟨hb, h⟩) fun h => hnew ⟨hb, h⟩)

theorem confined_grow {n : Nat} (inv : s.Inv) (hb : s.w.bound = true) (hv : s.w.variant = .growable)
    (h : s.grow n = .ready g) : Confined s g := by
  rcases grow_answers s n with ⟨-, h'⟩ | ⟨k, -, hk, h'⟩ | h' | h' <;> rw [h] at h' <;> cases h'
  · exact confined_of_mem_eq rfl
  · exact confined_growTo inv hb hv hk

theorem confined_ensureOrFail {n : Nat} (inv : s.Inv) (hb : s.w.bound = true) (h : s.ensureOrFail n = .ready g) :
    Confined s g := by
  rcases ensureOrFail_answers s n with ⟨-, -, h'⟩ | ⟨k, hv, -, hk, -, h'⟩ | ⟨st, -, -, h'⟩ | h' <;> rw [h] at h' <;>
    cases h'
  · exact confined_of_mem_eq rfl
  · exact confined_growTo inv hb hv hk

/-- A field that fits touches bytes of the region only: the capacity is whole bytes (R24 (a), R56). -/
theorem confined_writeFieldRaw {n : Nat} (hb : g.w.bound = true) (hcap : g.w.cap.toNat % 8 = 0)
    (hf : g.w.cur.toNat + n ≤ g.w.cap.toNat) (v : Word) : Confined g (g.writeFieldRaw v n) := by
  intro a ha
  rcases Nat.eq_zero_or_pos n with rfl | hn
  · exact absurd rfl ha
  · have hin : ¬(a < g.w.base.toNat + g.w.cur.toNat / 8 ∨
        g.w.base.toNat + (g.w.cur.toNat + n - 1) / 8 < a) := fun hout => ha (writeField_byte _ _ _ v hn hout)
    exact .inl ⟨hb, by omega, by omega⟩

/-- What W.BIT, W.UINT and W.INT change once their capacity check is ready (R113). -/
theorem confined_checkedWrite {n : Nat} (inv : s.Inv) (hb : s.w.bound = true) (h : s.ensureOrFail n = .ready g)
    (v : Word) : Confined s (g.writeFieldRaw v n) := by
  obtain ⟨ginv, hfit⟩ := ensureOrFail_inv inv hb h
  have hgb : g.w.bound = true := (ensureOrFail_frame h).bound.trans hb
  exact (confined_ensureOrFail inv hb h).trans (confined_writeFieldRaw hgb ginv.wCap hfit v)
    (sinkHolds_writeFieldRaw g v n)

/-- What W.INTS changes (R136): the sign bit's field, of one bit, then the magnitude's. -/
theorem confined_checkedSignedWrite {n : Nat} (inv : s.Inv) (hb : s.w.bound = true) (h : s.ensureOrFail n = .ready g)
    (hn : 1 ≤ n) (sign : Bool) (mag : Word) : Confined s ((g.writeBitRaw sign).writeFieldRaw mag (n - 1)) := by
  obtain ⟨ginv, hfit⟩ := ensureOrFail_inv inv hb h
  have hgb : g.w.bound = true := (ensureOrFail_frame h).bound.trans hb
  rw [writeBitRaw_eq g sign (v := BitVec.setWidth 64 (BitVec.ofBool sign)) (by cases sign <;> rfl)]
  generalize BitVec.setWidth 64 (BitVec.ofBool sign) = bit
  have hcur : (g.writeFieldRaw bit 1).w.cur.toNat = g.w.cur.toNat + 1 :=
    advance_toNat (cur := g.w.cur) (n := 1) (cap := g.w.cap) (by omega)
  have hsign : Confined s (g.writeFieldRaw bit 1) :=
    (confined_ensureOrFail inv hb h).trans (confined_writeFieldRaw hgb ginv.wCap (by omega) bit)
      (sinkHolds_writeFieldRaw g bit 1)
  have hrest : (g.writeFieldRaw bit 1).w.cur.toNat + (n - 1) ≤ g.w.cap.toNat := by omega
  have hmag : Confined (g.writeFieldRaw bit 1) ((g.writeFieldRaw bit 1).writeFieldRaw mag (n - 1)) :=
    confined_writeFieldRaw (g := g.writeFieldRaw bit 1) hgb ginv.wCap hrest mag
  exact hsign.trans hmag (sinkHolds_writeFieldRaw _ mag _)

/-- Self-allocation makes the bytes of the buffer it binds unspecified (R182). -/
theorem confined_allocAt (inv : s.Inv) {nb : Nat}
    (hhi : nb + s.params.initBytes ≤ s.params.heapBase + s.params.heapBytes) : Confined s (s.allocAt nb) := by
  obtain ⟨hbase, hcap⟩ := allocAt_buffer inv hhi
  intro a ha
  have hin : ¬(a < nb ∨ nb + s.params.initBytes ≤ a) := fun hout => ha (read_forget_outside _ hout)
  exact .inr ⟨rfl, by omega, by omega⟩

/-- Giving the buffer back changes no byte outside it (R183). -/
theorem disposeW_read_outside {a : Nat} (h : ¬inRegion s.w.base s.w.cap a) : s.disposeW.mem.read a = s.mem.read a := by
  cases hv : s.w.variant with
  | fixed => cases ho : s.w.own <;> simp only [State.disposeW, State.release, hv, ho]
  | growable =>
    simp only [State.disposeW, hv]
    exact read_forget_outside _ (by omega)

theorem confined_unbindW (hb : s.w.bound = true) : Confined s s.unbindW := fun _ ha =>
  .inl ⟨hb, by_contra fun hout => ha (disposeW_read_outside hout)⟩

/-- By the command: it leaves `Mem`, or it is one of the seven that may change it (R50). -/
theorem confined_exec {i : Instr} (inv : s.Inv) (h : exec i s = .next t) : Confined s t := by
  have failed {legal : Bool} (hf : Failed legal s t) : Confined s t := by
    obtain ⟨st, -, -, rfl⟩ := hf
    exact confined_of_mem_eq rfl
  cases i with
  | wBorrow | wOwn | wSeek | wTell | wData | wSize | rBorrow | rOwn | rUnbind | rSeek | rTell | rBit | rUint | rInt
  | rInts => exact confined_of_mem_eq ((exec_frame h).mem rfl)
  | wAlloc =>
    obtain ⟨-, hhi⟩ := placeInHeap_range s.params s.draws (initBytes_le_heapBytes inv)
    exact (wAlloc_next h).elim failed fun ⟨_, ht⟩ => ht ▸ confined_allocAt inv hhi
  | wUnbind => exact (wUnbind_next h).elim failed fun ⟨hb, ht⟩ => ht ▸ confined_unbindW hb
  | wEnsure =>
    rcases wEnsure_next h with hf | ⟨-, -, rfl⟩ | ⟨hb, hv, g, hg, rfl⟩
    · exact failed hf
    · exact confined_of_mem_eq rfl
    · have grown := confined_grow inv hb hv hg
      exact grown
  | wBit => exact (wBit_next h).elim failed fun ⟨_, hb, _, hg, ht⟩ => ht ▸ confined_checkedWrite inv hb hg _
  | wUint => exact (wUint_next h).elim failed fun ⟨_, hb, _, hg, ht⟩ => ht ▸ confined_checkedWrite inv hb hg _
  | wInt => exact (wInt_next h).elim failed fun ⟨_, hb, _, hg, ht⟩ => ht ▸ confined_checkedWrite inv hb hg _
  | wInts =>
    exact (wInts_next h).elim failed fun ⟨hl, hb, _, hg, ht⟩ =>
      ht ▸ confined_checkedSignedWrite inv hb hg (widthLegal_iff.1 hl).1 _ _

theorem confined_runPacket {p : Packet} (inv : s.Inv) (h : runPacket p s = .next t) : Confined s t := by
  rcases runPacket_next h with ⟨e, -, rfl⟩ | ⟨i, -, hi⟩
  · exact confined_of_mem_eq rfl
  · exact confined_exec inv hi

/-! ## The bytes the packing algorithm writes (R100, R106) -/

theorem lowMask_bit {i : Nat} (k : Nat) (hi : i < 8) : (lowMask k).getLsbD i = decide (i < k) := by
  rw [lowMask, BitVec.getLsbD_ofNat, Nat.testBit_two_pow_sub_one, decide_eq_true hi, Bool.true_and]

/-- `0xFF - x` is the complement of the byte x. -/
theorem complement_bit (x : Byte) {i : Nat} (hi : i < 8) : (0xFF#8 - x).getLsbD i = !x.getLsbD i := by
  rw [show 0xFF#8 = BitVec.allOnes 8 from rfl, BitVec.allOnes_sub_eq_not, BitVec.getLsbD_not]
  simp [hi]

section bytes
variable (x : Byte) (c : Nat) (v : Word) {w : Nat}

/-- A whole byte of the field, at a byte boundary. -/
theorem wholeByte_eq_splice (ho : c % 8 = 0) (hw : 8 ≤ w) :
    ((v >>> (w - 8)) &&& 0xFF#64).setWidth 8 = spliceByte x (c / 8) c v w := by
  apply byte_ext
  intro k hk
  have hmask : (0xFF#64).getLsbD (7 - k) = true := by interval_cases k <;> rfl
  rw [spliceByte_bit _ _ _ _ _ hk, if_pos (by omega), fieldBit, BitVec.getLsbD_setWidth, BitVec.getLsbD_and, hmask,
    BitVec.getLsbD_ushiftRight, decide_eq_true (by omega), Bool.true_and, Bool.and_true]
  congr 1
  omega

/-- A field inside one byte. -/
theorem innerBits_eq_splice (hw : w ≤ 8 - c % 8) :
    (x &&& (0xFF#8 - (lowMask w <<< (8 - c % 8 - w)))) ||| ((v.setWidth 8 &&& lowMask w) <<< (8 - c % 8 - w)) =
      spliceByte x (c / 8) c v w := by
  apply byte_ext
  intro k hk
  have hi : 7 - k < 8 := by omega
  have hd : 7 - k - (8 - c % 8 - w) < 8 := by omega
  simp only [BitVec.getLsbD_or, BitVec.getLsbD_and, BitVec.getLsbD_shiftLeft, BitVec.getLsbD_setWidth]
  rw [spliceByte_bit _ _ _ _ _ hk, complement_bit _ hi, BitVec.getLsbD_shiftLeft, lowMask_bit _ hd]
  by_cases hin : c % 8 ≤ k ∧ k < c % 8 + w
  · rw [if_pos (by omega), fieldBit, show w - 1 - (8 * (c / 8) + k - c) = 7 - k - (8 - c % 8 - w) by omega]
    simp [hi, hd, show ¬7 - k < 8 - c % 8 - w by omega, show 7 - k - (8 - c % 8 - w) < w by omega]
  · rw [if_neg (by omega)]
    by_cases hlow : 7 - k < 8 - c % 8 - w
    · simp [hi, hlow]
    · simp [hi, hlow, show ¬7 - k - (8 - c % 8 - w) < w by omega]

/-- At a byte boundary the low bits the algorithm keeps are those the field leaves. -/
theorem lowMask_eq_complement (hw : w < 8) : lowMask (8 - w) = 0xFF#8 - (lowMask w <<< (8 - w)) := by
  interval_cases w <;> rfl

/-- The field's last bits, at a byte boundary. -/
theorem lastBits_eq_splice (ho : c % 8 = 0) (hw : w < 8) :
    ((v.setWidth 8 &&& lowMask w) <<< (8 - w)) ||| (x &&& lowMask (8 - w)) = spliceByte x (c / 8) c v w := by
  have h := innerBits_eq_splice x c v (w := w) (by omega)
  rw [ho, Nat.sub_zero, ← lowMask_eq_complement hw] at h
  rw [BitVec.or_comm, h]

/-- The field's first bits, up to the byte's end. -/
theorem firstBits_eq_splice (hw : 8 - c % 8 < w) :
    (x &&& (0xFF#8 - lowMask (8 - c % 8))) ||| ((v >>> (w - (8 - c % 8))).setWidth 8 &&& lowMask (8 - c % 8)) =
      spliceByte x (c / 8) c v w := by
  apply byte_ext
  intro k hk
  simp only [BitVec.getLsbD_or, BitVec.getLsbD_and, BitVec.getLsbD_ushiftRight, BitVec.getLsbD_setWidth]
  rw [spliceByte_bit _ _ _ _ _ hk, complement_bit _ (by omega), lowMask_bit _ (by omega)]
  by_cases hin : c % 8 ≤ k
  · rw [if_pos (by omega), fieldBit, show w - 1 - (8 * (c / 8) + k - c) = w - (8 - c % 8) + (7 - k) by omega]
    simp [show 7 - k < 8 - c % 8 by omega, show 7 - k < 8 by omega]
  · rw [if_neg (by omega)]
    simp [show ¬7 - k < 8 - c % 8 by omega]

end bytes

/-! ## The field write, byte by byte (R58, R105) -/

/-- From byte `j` on, a field whose first `r` bits lie before that byte is the field of the other bits. -/
theorem spliceByte_rest (old : Byte) {j c w r : Nat} (v : Word) (hr : r ≤ w) (hj : c + r ≤ 8 * j) :
    spliceByte old j c v w = spliceByte old j (c + r) v (w - r) := by
  apply byte_ext
  intro k hk
  rw [spliceByte_bit _ _ _ _ _ hk, spliceByte_bit _ _ _ _ _ hk]
  by_cases h : c ≤ 8 * j + k ∧ 8 * j + k < c + w
  · rw [if_pos h, if_pos (by omega), fieldBit, fieldBit]
    congr 1
    omega
  · rw [if_neg h, if_neg (by omega)]

theorem spliceFrom_rest (m : Memory) (base : Nat) {j c w r : Nat} (v : Word) (n : Nat) (hr : r ≤ w)
    (hj : c + r ≤ 8 * j) : m.spliceFrom base c v w n j = m.spliceFrom base (c + r) v (w - r) n j := by
  induction n generalizing m j with
  | zero => rfl
  | succ n ih => rw [Memory.spliceFrom, Memory.spliceFrom, spliceByte_rest _ v hr hj, ih _ (by omega)]

/-- A field that ends in the byte at its cursor is that byte's write. -/
theorem writeField_inByte (m : Memory) (base c : Nat) (v : Word) {w : Nat} (hpos : 1 ≤ w) (hw : w ≤ 8 - c % 8) :
    m.writeField base c v w =
      m.write (base + c / 8) (spliceByte (m.read (base + c / 8)) (c / 8) c v w) := by
  have ht : touchedBytes c w = 1 := by rw [touchedBytes, if_neg (by omega)]; omega
  rw [Memory.writeField, ht]
  rfl

/-- A field that reaches the end of the byte at its cursor is that byte's write, then the write of its other bits. -/
theorem writeField_toByteEnd (m : Memory) (base c : Nat) (v : Word) {w : Nat} (hw : 8 - c % 8 ≤ w) :
    m.writeField base c v w =
      (m.write (base + c / 8) (spliceByte (m.read (base + c / 8)) (c / 8) c v w)).writeField base
        (c + (8 - c % 8)) v (w - (8 - c % 8)) := by
  have hmod : c % 8 < 8 := Nat.mod_lt c (by decide)
  have ht : touchedBytes c w = touchedBytes (c + (8 - c % 8)) (w - (8 - c % 8)) + 1 := by
    simp only [touchedBytes]
    rw [if_neg (by omega)]
    split <;> omega
  have hnext : (c + (8 - c % 8)) / 8 = c / 8 + 1 := by omega
  rw [Memory.writeField, Memory.writeField, ht, hnext, Memory.spliceFrom]
  exact spliceFrom_rest _ base v _ hw (by omega)

/-- R106 against R105, by the turns of the algorithm: each writes the byte at the cursor and leaves the rest of the
field to the next. -/
theorem packField_eq (m : Memory) (base c : Nat) (v : Word) {fuel w : Nat} (hfuel : w ≤ fuel) :
    packField fuel m base c v w = (m.writeField base c v w, c + w) := by
  induction fuel generalizing m c w with
  | zero =>
    obtain rfl : w = 0 := by omega
    rfl
  | succ fuel ih =>
    rcases Nat.eq_zero_or_pos w with rfl | hpos
    · rfl
    have hmod : c % 8 < 8 := Nat.mod_lt c (by decide)
    have advance (n : Nat) (hn : n ≤ w) : c + n + (w - n) = c + w := by omega
    simp only [packField, if_neg (show ¬w = 0 by omega)]
    by_cases ho : c % 8 = 0
    · have hr : 8 - c % 8 = 8 := by rw [ho]
      rw [if_pos ho]
      by_cases hw : 8 ≤ w
      · rw [if_pos hw, wholeByte_eq_splice (m.read (base + c / 8)) c v ho hw, ih _ _ (by omega), advance 8 hw,
          writeField_toByteEnd m base c v (by omega), hr]
      · rw [if_neg hw, lastBits_eq_splice _ c v ho (by omega), writeField_inByte m base c v hpos (by omega)]
    · rw [if_neg ho]
      by_cases hw : w ≤ 8 - c % 8
      · rw [if_pos hw, innerBits_eq_splice _ c v hw, writeField_inByte m base c v hpos hw]
      · rw [if_neg hw, firstBits_eq_splice _ c v (by omega), ih _ _ (by omega), advance _ (by omega),
          writeField_toByteEnd m base c v (by omega)]

/-! ## The obligations -/

/-- Settles O50: the step runs the packet, and what a packet changes is confined to the Write Unit's region. -/
theorem storesStayInTheBoundRegion : Obligations.StoresStayInTheBoundRegion := by
  intro s t p rest inv hp h
  rw [step_command hp] at h
  have confined := confined_runPacket (inv_pending inv rest) h
  exact confined

/-- Settles O30, by the algorithm's turns: each consumes a bit at least, so `w` turns are enough. -/
theorem packingAlgorithmHasTheNetEffect : Obligations.PackingAlgorithmHasTheNetEffect :=
  fun m base c _ v _ => packField_eq m base c v le_rfl

end Sys2Proof.Machine
end

section
/-! PROOFS. The statements of 30_encoding.md: decoding an encoded command gives it back, what decodes owns its word, the
decoder follows the opcode map, and the reserved words are answered IllegalCommand. -/

namespace Sys2Proof.Machine

variable {p q : Packet} {i j : Instr} {u : BitVec 1} {op : BitVec 4} {arg : BitVec 8}

/-! ## The operands a command uses (R83) -/

/-- The command with every operand it uses taken from the packet. Its origin or width stays: ARG holds it. -/
def operandsFrom (p : Packet) : Instr → Instr
  | .wBorrow _ _ => .wBorrow p.a0 p.a1
  | .wOwn _ _ _ => .wOwn p.a0 p.a1 p.a2
  | .wAlloc => .wAlloc
  | .wUnbind => .wUnbind
  | .wSeek origin _ => .wSeek origin p.a0
  | .wTell => .wTell
  | .wEnsure _ => .wEnsure p.a0
  | .wBit _ => .wBit p.a0
  | .wUint width _ => .wUint width p.a0
  | .wInt width _ => .wInt width p.a0
  | .wInts width _ => .wInts width p.a0
  | .wData => .wData
  | .wSize => .wSize
  | .rBorrow _ _ => .rBorrow p.a0 p.a1
  | .rOwn _ _ _ => .rOwn p.a0 p.a1 p.a2
  | .rUnbind => .rUnbind
  | .rSeek origin _ => .rSeek origin p.a0
  | .rTell => .rTell
  | .rBit => .rBit
  | .rUint width => .rUint width
  | .rInt width => .rInt width
  | .rInts width => .rInts width

theorem operandsFrom_encode (i : Instr) : operandsFrom (encode i) i = i := by cases i <;> rfl

/-- The operands a command does not use are ignored. -/
theorem operandsFrom_congr (h0 : 1 ≤ i.operandCount → q.a0 = p.a0) (h1 : 2 ≤ i.operandCount → q.a1 = p.a1)
    (h2 : 3 ≤ i.operandCount → q.a2 = p.a2) : operandsFrom q i = operandsFrom p i := by
  cases i <;> simp_all [operandsFrom, Instr.operandCount]

/-! ## From a command to its packet and back (R91) -/

theorem formatN_zero (i : Instr) : formatN 0 i = .ok i := formatN_ok.2 ⟨rfl, rfl⟩

theorem formatF_width {width : Nat} (h : widthEncodable width = true) (make : Nat → Instr) :
    formatF (BitVec.ofNat 8 width) make = .ok (make width) := by
  have hlt := Laws.EncodedRow.width_arg h
  have hw : (BitVec.ofNat 8 width).toNat = width := by
    simp only [widthEncodable, decide_eq_true_eq] at h
    exact Nat.mod_eq_of_lt (by omega)
  exact formatF_ok.2 ⟨hlt, by rw [hw]⟩

theorem formatS_origin (origin : Origin) (make : Origin → Instr) :
    formatS (BitVec.ofNat 8 origin.code) make = .ok (make origin) :=
  formatS_ok.2 ⟨Laws.EncodedRow.origin_arg origin, by cases origin <;> rfl⟩

theorem decode_writeWord (h : q.cmd = commandWord 0 op arg) : decode q = decodeWrite op.toNat arg q := by
  obtain ⟨hz, hu, ho, ha⟩ := fields_cmd 0 op arg
  rw [decode, h, hz, hu, ho, ha]
  rfl

theorem decode_readWord (h : q.cmd = commandWord 1 op arg) : decode q = decodeRead op.toNat arg q := by
  obtain ⟨hz, hu, ho, ha⟩ := fields_cmd 1 op arg
  rw [decode, h, hz, hu, ho, ha]
  rfl

/-- A packet with a well-formed command's word decodes to that command on the packet's own operands. -/
theorem decode_of_word (hi : i.wellFormed = true) (h : q.cmd = (encode i).cmd) : decode q = .ok (operandsFrom q i) := by
  cases i with
  | wBorrow _ _ | wOwn _ _ _ | wAlloc | wUnbind | wTell | wEnsure _ | wBit _ | wData | wSize =>
    exact (decode_writeWord h).trans (formatN_zero _)
  | wSeek origin _ => exact (decode_writeWord h).trans (formatS_origin origin (.wSeek · q.a0))
  | wUint _ _ => exact (decode_writeWord h).trans (formatF_width hi (.wUint · q.a0))
  | wInt _ _ => exact (decode_writeWord h).trans (formatF_width hi (.wInt · q.a0))
  | wInts _ _ => exact (decode_writeWord h).trans (formatF_width hi (.wInts · q.a0))
  | rBorrow _ _ | rOwn _ _ _ | rUnbind | rTell | rBit => exact (decode_readWord h).trans (formatN_zero _)
  | rSeek origin _ => exact (decode_readWord h).trans (formatS_origin origin (.rSeek · q.a0))
  | rUint _ => exact (decode_readWord h).trans (formatF_width hi .rUint)
  | rInt _ => exact (decode_readWord h).trans (formatF_width hi .rInt)
  | rInts _ => exact (decode_readWord h).trans (formatF_width hi .rInts)

/-! ## From a packet to its command and back (R85) -/

/-- The command is well formed, its word has these fields, and its operands are the packet's. -/
def ReadsBack (u : BitVec 1) (op : BitVec 4) (arg : BitVec 8) (p : Packet) (i : Instr) : Prop :=
  i.wellFormed = true ∧ (encode i).cmd = commandWord u op arg ∧ operandsFrom p i = i

theorem readsBack_of_formatN (h : formatN arg i = .ok j) (hi : ReadsBack u op 0 p i) : ReadsBack u op arg p j := by
  obtain ⟨rfl, rfl⟩ := formatN_ok.1 h
  exact hi

theorem readsBack_of_formatF {make : Nat → Instr} (h : formatF arg make = .ok j)
    (hi : ∀ width, widthEncodable width = true → ReadsBack u op (BitVec.ofNat 8 width) p (make width)) :
    ReadsBack u op arg p j := by
  obtain ⟨hlt, rfl⟩ := formatF_ok.1 h
  simpa using hi arg.toNat (decide_eq_true hlt)

theorem readsBack_of_formatS {make : Origin → Instr} (h : formatS arg make = .ok j)
    (hi : ∀ origin : Origin, ReadsBack u op (BitVec.ofNat 8 origin.code) p (make origin)) : ReadsBack u op arg p j := by
  have code_ofCode : ∀ n < 4, (Origin.ofCode n).code = n := by decide
  obtain ⟨hlt, rfl⟩ := formatS_ok.1 h
  simpa [code_ofCode _ hlt] using hi (Origin.ofCode arg.toNat)

theorem decodeWrite_readsBack {n : Nat} (h : decodeWrite n arg p = .ok i) : ReadsBack 0 (BitVec.ofNat 4 n) arg p i := by
  unfold decodeWrite at h
  split at h
  case h_5 => exact readsBack_of_formatS h fun _ => ⟨rfl, rfl, rfl⟩
  case h_9 | h_10 | h_11 => exact readsBack_of_formatF h fun _ hw => ⟨hw, rfl, rfl⟩
  case h_14 => cases h
  all_goals exact readsBack_of_formatN h ⟨rfl, rfl, rfl⟩

theorem decodeRead_readsBack {n : Nat} (h : decodeRead n arg p = .ok i) : ReadsBack 1 (BitVec.ofNat 4 n) arg p i := by
  unfold decodeRead at h
  split at h
  case h_4 => exact readsBack_of_formatS h fun _ => ⟨rfl, rfl, rfl⟩
  case h_7 | h_8 | h_9 => exact readsBack_of_formatF h fun _ hw => ⟨hw, rfl, rfl⟩
  case h_10 => cases h
  all_goals exact readsBack_of_formatN h ⟨rfl, rfl, rfl⟩

theorem decode_readsBack (h : decode p = .ok i) :
    ReadsBack (unitField p.cmd) (opField p.cmd) (argField p.cmd) p i ∧ zField p.cmd = 0#3 := by
  unfold decode at h
  split at h
  · cases h
  · rename_i hz
    refine ⟨?_, not_not.1 hz⟩
    split at h
    · rename_i hu
      simpa [hu] using decodeWrite_readsBack h
    · rename_i hu
      have hu : unitField p.cmd = 1 := by generalize unitField p.cmd = u at *; revert u; decide
      simpa [hu] using decodeRead_readsBack h

/-- The decoder, said once: what a packet decodes to is the well-formed command with its word and its operands. -/
theorem decode_ok_iff :
    decode p = .ok i ↔ i.wellFormed = true ∧ (encode i).cmd = p.cmd ∧ operandsFrom p i = i := by
  constructor
  · intro h
    obtain ⟨⟨hwf, hcmd, hops⟩, hz⟩ := decode_readsBack h
    exact ⟨hwf, hcmd.trans (word_of_fields _ hz).symm, hops⟩
  · rintro ⟨hwf, hcmd, hops⟩
    rw [decode_of_word hwf hcmd.symm, hops]

/-! ## The opcode map (R84, R88) -/

/-- Every command's word is selected by the row with its mnemonic. -/
theorem encodedRow : ∀ i : Instr, Laws.EncodedRow.Statement i
  | .wBorrow base nbytes => Laws.EncodedRow.wBorrow base nbytes
  | .wOwn base nbytes token => Laws.EncodedRow.wOwn base nbytes token
  | .wAlloc => Laws.EncodedRow.wAlloc
  | .wUnbind => Laws.EncodedRow.wUnbind
  | .wSeek origin offset => Laws.EncodedRow.wSeek origin offset
  | .wTell => Laws.EncodedRow.wTell
  | .wEnsure bits => Laws.EncodedRow.wEnsure bits
  | .wBit bit => Laws.EncodedRow.wBit bit
  | .wUint width value => Laws.EncodedRow.wUint width value
  | .wInt width value => Laws.EncodedRow.wInt width value
  | .wInts width value => Laws.EncodedRow.wInts width value
  | .wData => Laws.EncodedRow.wData
  | .wSize => Laws.EncodedRow.wSize
  | .rBorrow base nbytes => Laws.EncodedRow.rBorrow base nbytes
  | .rOwn base nbytes token => Laws.EncodedRow.rOwn base nbytes token
  | .rUnbind => Laws.EncodedRow.rUnbind
  | .rSeek origin offset => Laws.EncodedRow.rSeek origin offset
  | .rTell => Laws.EncodedRow.rTell
  | .rBit => Laws.EncodedRow.rBit
  | .rUint width => Laws.EncodedRow.rUint width
  | .rInt width => Laws.EncodedRow.rInt width
  | .rInts width => Laws.EncodedRow.rInts width

theorem row_of_decode (h : decode p = .ok i) :
    ∃ row ∈ opcodeRows, row.selects p.cmd = true ∧ row.mnemonic = i.mnemonic := by
  obtain ⟨hwf, hcmd, -⟩ := decode_ok_iff.1 h
  obtain ⟨row, hrow, hname, hsel⟩ := encodedRow i hwf
  exact ⟨row, hrow, hcmd ▸ hsel, hname⟩

/-- No two rows share a unit and an operation, so no word is selected by two. -/
theorem selects_unique {x y : OpcodeRow} {c : BitVec 16} (hx : x ∈ opcodeRows) (hy : y ∈ opcodeRows)
    (hxc : x.selects c = true) (hyc : y.selects c = true) : x = y := by
  have distinct : ∀ x ∈ opcodeRows, ∀ y ∈ opcodeRows,
      unitOf x.pattern = unitOf y.pattern → opOf x.pattern = opOf y.pattern → x = y := by decide
  obtain ⟨-, hxu, hxo, -⟩ := (selects_iff hx c).1 hxc
  obtain ⟨-, hyu, hyo, -⟩ := (selects_iff hy c).1 hyc
  exact distinct x hx y hy (hxu.symm.trans hyu) (hxo.symm.trans hyo)

/-- A row's own pattern is not reserved, and neither is another word it selects: the two differ in the part of ARG the row's
format leaves free. -/
theorem not_reserved_of_selects {row : OpcodeRow} {c : BitVec 16} (hr : row ∈ opcodeRows) (h : row.selects c = true) :
    ¬ reservedWord c := by
  have free : ∀ row ∈ opcodeRows, ¬ reservedWord row.pattern ∧ argBound row.mask =
      if opOf row.pattern = 9 ∨ opOf row.pattern = 10 ∨ opOf row.pattern = 11 then 128
      else if opOf row.pattern = 5 then 4 else 1 := by decide
  obtain ⟨hpattern, hbound⟩ := free row hr
  obtain ⟨hz, hu, ho, ha⟩ := (selects_iff hr c).1 h
  simp only [reservedWord, argReserved, hz, hu, ho] at hpattern ⊢
  split_ifs at hbound hpattern ⊢ <;> omega

/-- Every packet decodes to a command or has a reserved word (R85). -/
theorem decode_of_not_reserved (h : ¬ reservedWord p.cmd) : ∃ i, decode p = .ok i := by
  cases hd : decode p with
  | ok i => exact ⟨i, rfl⟩
  | error e => exact absurd ((decode_error_iff p).1 ⟨e, hd⟩) h

theorem reservedWord_iff_no_row (c : BitVec 16) : reservedWord c ↔ ∀ row ∈ opcodeRows, row.selects c = false := by
  constructor
  · intro hres row hr
    exact Bool.eq_false_iff.2 fun hsel => not_reserved_of_selects hr hsel hres
  · intro hnone
    by_contra hres
    obtain ⟨i, hi⟩ := decode_of_not_reserved (p := ⟨c, 0, 0, 0⟩) hres
    obtain ⟨row, hr, hsel, -⟩ := row_of_decode hi
    exact absurd hsel (by simp [hnone row hr])

/-! ## The packets a step takes -/

theorem runPacket_reserved {s : State} (h : reservedWord p.cmd) : runPacket p s = .next (s.answer .illegalCommand 0) := by
  obtain ⟨e, he⟩ := (decode_error_iff p).2 h
  simp only [runPacket, he, State.answerReserved, State.fail]

theorem decodeTableWord_some {nbits w : Nat} (h : decodeTableWord nbits w = some i) :
    decode (Packet.ofTable nbits w) = .ok i := by
  unfold decodeTableWord at h
  cases hd : decode (Packet.ofTable nbits w) with
  | ok k => rw [hd] at h; exact congrArg Except.ok (Option.some.inj h)
  | error e => rw [hd] at h; cases h

/-! ## The obligations -/

/-- Settles O2: the encoded packet has the command's word and the command's operands. -/
theorem decodeOfEncode : Obligations.DecodeOfEncode := fun i hwf =>
  decode_ok_iff.2 ⟨hwf, rfl, operandsFrom_encode i⟩

/-- Settles O3: `decode_ok_iff` at the packet, and again at a packet that agrees with it on the operands used. -/
theorem decodedCommandOwnsItsWord : Obligations.DecodedCommandOwnsItsWord := by
  intro p i h
  obtain ⟨hwf, hcmd, hops⟩ := decode_ok_iff.1 h
  refine ⟨hwf, hcmd, fun q hq h0 h1 h2 => decode_ok_iff.2 ⟨hwf, hcmd.trans hq.symm, ?_⟩⟩
  rw [operandsFrom_congr h0 h1 h2, hops]

/-- Settles O4: a selected word decodes, the row of what it decodes to selects it as well, and rows are unique. -/
theorem decodeFollowsTheOpcodeMap : Obligations.DecodeFollowsTheOpcodeMap := by
  refine fun p => ⟨fun i => row_of_decode, fun row hr hsel => ?_, fun x hx y hy => selects_unique hx hy⟩
  obtain ⟨i, hi⟩ := decode_of_not_reserved (not_reserved_of_selects hr hsel)
  obtain ⟨row', hr', hsel', hname⟩ := row_of_decode hi
  exact ⟨i, hi, by rw [← hname, selects_unique hr' hr hsel' hsel]⟩

/-- Settles O5, by the decoder's account of the reserved words and the one answer a rejected packet gets. -/
theorem reservedWordsAreAnsweredIllegal : Obligations.ReservedWordsAreAnsweredIllegal :=
  ⟨reservedWord_iff_no_row, fun _ _ _ hres hp => (step_command hp).trans (runPacket_reserved hres),
    by decide, by decide⟩

/-- Settles O1: the words are fixed, and the decoder computes. -/
theorem sampleWordsDecode : Obligations.SampleWordsDecode :=
  ⟨by decide, by decide, by decide, by decide, by decide⟩

/-- Settles O7: `withFetchWord` puts the packet at the head of the pending list, and the step leaves the rest as it was. -/
theorem fetchedWordRuns : Obligations.FetchedWordRuns := fun s nbits w _ h =>
  (step_command (s := s.withFetchWord nbits w) rfl).trans (runPacket_ok (decodeTableWord_some h))

end Sys2Proof.Machine
end

section
/-! PROOFS. The statements of 40_bit_primitives.md: the mask tables, a tell after a seek, the bits growth and a field write
keep, the one field behind the four write commands, and the round trips. -/

namespace Sys2Proof.Machine

variable {s g t : State} {width : Nat} {value : Word}

/-! ## The tells (R131, R161) -/

theorem exec_wTell (hb : s.w.bound = true) : exec .wTell s = .next (s.answer .ok s.w.cur) := enterW_pass hb _

theorem exec_rTell (hb : s.r.bound = true) : exec .rTell s = .next (s.answer .ok s.r.cur) := enterR_pass hb _

/-! ## The stream bits growth keeps (R112) -/

/-- Every stream bit of the old buffer reads as before through the current base. -/
def StreamKept (s t : State) : Prop :=
  ∀ p < s.w.cap.toNat, sbit t.mem t.w.base.toNat p = sbit s.mem s.w.base.toNat p

theorem streamKept_refl (s : State) : StreamKept s s := fun _ _ => rfl

theorem GrownBy.streamKept {k : Nat} (hcap : s.w.cap.toNat % 8 = 0) (h : GrownBy s g k) : StreamKept s g := by
  intro p hp
  rw [sbit, sbit, h.kept (p / 8) (by omega)]

theorem streamKept_grow {n : Nat} (inv : s.Inv) (hb : s.w.bound = true) (hv : s.w.variant = .growable)
    (h : s.grow n = .ready g) : StreamKept s g := by
  rcases grow_answers s n with ⟨-, h'⟩ | ⟨k, -, hk, h'⟩ | h' | h' <;> rw [h] at h' <;> cases h'
  · exact streamKept_refl s
  · exact (growTo_grownBy inv hb hv hk).streamKept inv.wCap

theorem streamKept_ensureOrFail {n : Nat} (inv : s.Inv) (hb : s.w.bound = true) (h : s.ensureOrFail n = .ready g) :
    StreamKept s g := by
  rcases ensureOrFail_answers s n with ⟨-, -, h'⟩ | ⟨k, hv, -, -, hg, h'⟩ | ⟨st, -, -, h'⟩ | h' <;> rw [h] at h' <;>
    cases h'
  · exact streamKept_refl s
  · exact streamKept_grow inv hb hv hg

/-! ## Commands whose capacity check passes without growth (R109 to R111) -/

theorem ensureOrFail_of_room {n : Nat} (inv : s.Inv) (hb : s.w.bound = true)
    (hroom : s.w.cur.toNat + n ≤ s.w.cap.toNat) : s.ensureOrFail n = .ready s := by
  cases hv : s.w.variant with
  | fixed => rw [ensureOrFail_fixed inv hb hv, if_pos hroom]
  | growable =>
    have hgrow : s.grow n = .ready s := if_pos hroom
    simp only [State.ensureOrFail, hv, hgrow]
    exact guardAccess_ready (inv.wRegion hb) inv.wCap hroom

/-- The shape of the four write commands, when their field has room. -/
theorem write_of_room {n : Nat} (inv : s.Inv) (hb : s.w.bound = true) (hroom : s.w.cur.toNat + n ≤ s.w.cap.toNat)
    (k : State → Outcome) : s.enterW true (s.settle (s.ensureOrFail n) k) = k s := by
  rw [enterW_pass hb, ensureOrFail_of_room inv hb hroom, settle_ready]

/-- The shape of the four read commands, when their field lies in the buffer. -/
theorem read_of_room {n : Nat} (inv : s.Inv) (hb : s.r.bound = true) (hroom : s.r.cur.toNat + n ≤ s.r.cap.toNat)
    (k : State → Outcome) : s.enterR true (s.settle (s.checkOrFail n) k) = k s := by
  rw [enterR_pass hb, checkOrFail_eq inv hb, if_pos hroom, settle_ready]

/-! ## The field of W.INTS (R116, R136) -/

/-- The field W.INTS writes, as one number: the sign shifted to the top, and the magnitude's low bits. -/
def signMagnitudeField (value : Word) (width : Nat) : Word :=
  BitVec.ofNat 64 ((if value.toInt < 0 then 2 ^ (width - 1) else 0) + value.toInt.natAbs % 2 ^ (width - 1))

theorem signMagnitudeField_sign (h1 : 1 ≤ width) (h2 : width ≤ 64) :
    (signMagnitudeField value width).getLsbD (width - 1) = decide (value.toInt < 0) := by
  rw [signMagnitudeField, BitVec.getLsbD_ofNat, decide_eq_true (by omega), Bool.true_and]
  have hlow : (value.toInt.natAbs % 2 ^ (width - 1)).testBit (width - 1) = false :=
    Nat.testBit_lt_two_pow (Nat.mod_lt _ (Nat.two_pow_pos _))
  by_cases hneg : value.toInt < 0
  · simp [hneg, Nat.testBit_two_pow_add_eq, hlow]
  · simp [hneg, hlow]

theorem signMagnitudeField_magnitude {i : Nat} (hi : i < width - 1) (h2 : width ≤ 64) :
    (signMagnitudeField value width).getLsbD i = value.toInt.natAbs.testBit i := by
  rw [signMagnitudeField, BitVec.getLsbD_ofNat, decide_eq_true (by omega), Bool.true_and]
  by_cases hneg : value.toInt < 0
  · simp [hneg, Nat.testBit_two_pow_add_gt hi, hi]
  · simp [hneg, hi]

theorem magnitude_bit (value : Word) (i : Nat) : (magnitude value).getLsbD i = value.toInt.natAbs.testBit i := by
  rw [BitVec.getLsbD, magnitude_toNat]

/-- The sign bit and then the magnitude are the one field. -/
theorem signedWrite_eq (hm : g.mem.wf) (hroom : g.w.cur.toNat + width ≤ g.w.cap.toNat) (h1 : 1 ≤ width)
    (h2 : width ≤ 64) (value : Word) :
    (g.writeBitRaw (signBit value)).writeFieldRaw (magnitude value) (width - 1) =
      g.writeFieldRaw (signMagnitudeField value width) width := by
  have hsign : (BitVec.setWidth 64 (BitVec.ofBool (signBit value))).getLsbD 0 = signBit value := by
    cases signBit value <;> rfl
  rw [writeBitRaw_eq g _ hsign]
  generalize BitVec.setWidth 64 (BitVec.ofBool (signBit value)) = sign at hsign
  have hcur : (g.w.cur + BitVec.ofNat 64 1).toNat = g.w.cur.toNat + 1 := advance_toNat (cap := g.w.cap) (by omega)
  have hmem := writeField_split hm g.w.base.toNat g.w.cur.toNat width sign (magnitude value)
    (signMagnitudeField value width) h1
    (by rw [fieldBit, Nat.sub_zero, signMagnitudeField_sign h1 h2, fieldBit, hsign, signBit_eq])
    (fun i hi hiw => by
      rw [fieldBit, fieldBit, signMagnitudeField_magnitude (by omega) h2, magnitude_bit]
      congr 1; omega)
  simp only [State.writeFieldRaw, State.advanceW, hcur, hmem, ← advance_split g.w.cur h1]

theorem execWInts_eq_execWUint (inv : s.Inv) (h1 : 1 ≤ width) (h2 : width ≤ 64) (value : Word) :
    execWInts width value s = execWUint width (signMagnitudeField value width) s := by
  rw [execWInts, execWUint]
  cases hb : s.w.bound with
  | false => simp [State.enterW, State.requireBound, hb]
  | true =>
    cases hc : s.ensureOrFail width with
    | ready g =>
      obtain ⟨ginv, hroom⟩ := ensureOrFail_inv inv hb hc
      simp only [settle_ready, signedWrite_eq ginv.memory hroom h1 h2]
    | short | broken => rfl

/-- W.BIT's field is its operand, of width 1. -/
theorem execWBit_eq_execWUint {bit : Word} (h : bit.toNat ≤ 1) (s : State) : execWBit bit s = execWUint 1 bit s := by
  have hl : bitLegal bit = widthLegal 1 := bitLegal_iff.2 h
  simp only [execWBit, execWUint, hl, writeBitRaw_eq _ _ rfl]

/-! ## Reading a field (R108, R164, R165) -/

/-- The Read Unit stands at a field of `width` bits that holds the low bits of `v`. -/
structure ReaderAtField (s : State) (width : Nat) (v : Word) : Prop where
  inv : s.Inv
  bound : s.r.bound = true
  room : s.r.cur.toNat + width ≤ s.r.cap.toNat
  bits : ∀ i < width, sbit s.mem s.r.base.toNat (s.r.cur.toNat + i) = fieldBit v width i

/-- The bits behind the first, as R.INT and R.INTS read them after the sign. -/
theorem readRest_bit {i : Nat} (h1 : 1 ≤ width) (hroom : s.r.cur.toNat + width ≤ s.r.cap.toNat) (hi : i < 64) :
    ((s.advanceR 1).readFieldRaw (width - 1)).1.getLsbD i =
      (decide (i < width - 1) && sbit s.mem s.r.base.toNat (s.r.cur.toNat + (width - 1 - i))) := by
  have hcur := advanceR_one_cur h1 hroom
  rw [State.readFieldRaw, readField_bit _ _ _ _ hi, hcur]
  by_cases h : i < width - 1
  · rw [show s.r.cur.toNat + 1 + (width - 1 - 1 - i) = s.r.cur.toNat + (width - 1 - i) by omega]
    rfl
  · simp [h]

namespace ReaderAtField

variable {v : Word}

theorem read_bit (h : ReaderAtField s width v) {i : Nat} (hi : i < width) :
    sbit s.mem s.r.base.toNat (s.r.cur.toNat + (width - 1 - i)) = v.getLsbD i := by
  rw [h.bits _ (by omega), fieldBit, show width - 1 - (width - 1 - i) = i by omega]

theorem sign (h : ReaderAtField s width v) (h1 : 1 ≤ width) :
    s.readBitRaw.1 = if v.getLsbD (width - 1) then 1 else 0 := by
  rw [readBitRaw_value, ← h.read_bit (show width - 1 < width by omega), Nat.sub_self, Nat.add_zero]

theorem rest_bit (h : ReaderAtField s width v) (h1 : 1 ≤ width) {i : Nat} (hi : i < 64) :
    ((s.advanceR 1).readFieldRaw (width - 1)).1.getLsbD i = (decide (i < width - 1) && v.getLsbD i) := by
  rw [readRest_bit h1 h.room hi]
  by_cases hlt : i < width - 1
  · rw [h.read_bit (by omega)]
  · simp [hlt]

theorem exec_rUint (h : ReaderAtField s width v) (h1 : 1 ≤ width) (h2 : width ≤ 64) :
    exec (.rUint width) s = .next ((s.advanceR width).answer .ok ((v.setWidth width).setWidth 64)) := by
  have hvalue : (s.readFieldRaw width).1 = (v.setWidth width).setWidth 64 := by
    apply BitVec.eq_of_getLsbD_eq
    intro i hi
    rw [State.readFieldRaw, readField_bit _ _ _ _ hi]
    by_cases hlt : i < width
    · simp [hi, hlt, h.read_bit hlt]
    · simp [hlt]
  rw [exec, execRUint, widthLegal_iff.2 ⟨h1, h2⟩, read_of_room h.inv h.bound h.room, hvalue]
  rfl

theorem exec_rInt (h : ReaderAtField s width v) (h1 : 1 ≤ width) (h2 : width ≤ 64) :
    exec (.rInt width) s = .next ((s.advanceR width).answer .ok ((v.setWidth width).signExtend 64)) := by
  have hvalue : twosComplementResult s.readBitRaw.1 ((s.advanceR 1).readFieldRaw (width - 1)).1 width =
      (v.setWidth width).signExtend 64 := by
    apply BitVec.eq_of_getLsbD_eq
    intro i hi
    rw [h.sign h1, twosComplementResult_bit _ hi, h.rest_bit h1 hi, BitVec.getLsbD_signExtend,
      BitVec.msb_eq_getLsbD_last, decide_eq_true hi, Bool.true_and]
    rcases Nat.lt_trichotomy i (width - 1) with hlt | rfl | hgt
    · simp [hlt, show i < width by omega, show ¬width - 1 ≤ i by omega]
    · simp [show width - 1 < width by omega]
    · simp [show ¬i < width - 1 by omega, show ¬i < width by omega, show width - 1 ≤ i by omega,
        show width - 1 < width by omega]
  rw [exec, execRInt, widthLegal_iff.2 ⟨h1, h2⟩, read_of_room h.inv h.bound h.room]
  simp only [readBitRaw_state, readFieldRaw_state, advanceR_split h1, hvalue]
  rfl

theorem exec_rInts (h : ReaderAtField s width v) (h1 : 1 ≤ width) (h2 : width ≤ 64) :
    exec (.rInts width) s = .next ((s.advanceR width).answer .ok
      (signMagnitudeResult (if v.getLsbD (width - 1) then 1 else 0) ((v.setWidth (width - 1)).setWidth 64))) := by
  have hmag : ((s.advanceR 1).readFieldRaw (width - 1)).1 = (v.setWidth (width - 1)).setWidth 64 := by
    apply BitVec.eq_of_getLsbD_eq
    intro i hi
    rw [h.rest_bit h1 hi]
    simp [hi]
  rw [exec, execRInts, widthLegal_iff.2 ⟨h1, h2⟩, read_of_room h.inv h.bound h.room]
  simp only [readBitRaw_state, readFieldRaw_state, advanceR_split h1, hmag, h.sign h1]
  rfl

end ReaderAtField

/-! ## What a field reads back as (R114 to R116) -/

theorem zeroExtended_toNat (value : Word) (width : Nat) :
    ((value.setWidth width).setWidth 64).toNat = value.toNat % 2 ^ width := by
  rw [BitVec.toNat_setWidth, BitVec.toNat_setWidth]
  exact Nat.mod_eq_of_lt (lt_of_le_of_lt (Nat.mod_le _ _) value.isLt)

theorem zeroExtended_eq_iff :
    (value.setWidth width).setWidth 64 = value ↔ value.toNat < 2 ^ width := by
  rw [← BitVec.toNat_inj, zeroExtended_toNat]
  exact Nat.mod_eq_iff_lt (Nat.two_pow_pos width).ne'

/-- A sign-extended field is the value reduced to the field's range. -/
theorem signExtended_toInt (h2 : width ≤ 64) :
    ((value.setWidth width).signExtend 64).toInt = value.toInt.bmod (2 ^ width) := by
  rw [BitVec.toInt_signExtend_of_le h2, BitVec.toInt_setWidth, BitVec.toInt_eq_toNat_bmod,
    Int.bmod_bmod_of_dvd (Nat.pow_dvd_pow 2 h2)]

theorem signExtended_eq_iff (h1 : 1 ≤ width) (h2 : width ≤ 64) :
    (value.setWidth width).signExtend 64 = value ↔
      -(2 ^ (width - 1) : Int) ≤ value.toInt ∧ value.toInt ≤ 2 ^ (width - 1) - 1 := by
  obtain ⟨n, rfl⟩ : ∃ n, width = n + 1 := ⟨width - 1, by omega⟩
  have hpow : (2 ^ (n + 1) : Nat) = 2 * 2 ^ n := Nat.pow_succ'
  have hcast : ((2 ^ n : Nat) : Int) = 2 ^ n := by simp
  have hpos : 0 < 2 ^ n := Nat.two_pow_pos n
  rw [← BitVec.toInt_inj, signExtended_toInt h2, Nat.add_sub_cancel, ← hcast, hpow]
  generalize 2 ^ n = half at hpos
  constructor
  · intro h
    have hlo := Int.le_bmod (x := value.toInt) (m := 2 * half) (by omega)
    have hhi := Int.bmod_lt (x := value.toInt) (m := 2 * half) (by omega)
    omega
  · rintro ⟨hlo, hhi⟩
    exact Int.bmod_eq_of_le (by omega) (by omega)

/-- The magnitude's low bits, as they stand in the field of W.INTS. -/
theorem signMagnitudeField_low_toNat (h2 : width ≤ 64) :
    (((signMagnitudeField value width).setWidth (width - 1)).setWidth 64).toNat =
      value.toInt.natAbs % 2 ^ (width - 1) := by
  have hlow : (signMagnitudeField value width).setWidth (width - 1) = (magnitude value).setWidth (width - 1) := by
    apply BitVec.eq_of_getLsbD_eq
    intro i hi
    simp [hi, signMagnitudeField_magnitude hi h2, magnitude_bit]
  rw [hlow, zeroExtended_toNat, magnitude_toNat]

/-- What R.INTS answers of the field W.INTS wrote. -/
def signMagnitudeReadBack (value : Word) (width : Nat) : Word :=
  signMagnitudeResult (if (signMagnitudeField value width).getLsbD (width - 1) then 1 else 0)
    (((signMagnitudeField value width).setWidth (width - 1)).setWidth 64)

theorem signMagnitudeReadBack_toInt (h1 : 1 ≤ width) (h2 : width ≤ 64) :
    (signMagnitudeReadBack value width).toInt =
      (if value.toInt < 0 then -1 else 1) * ((value.toInt.natAbs % 2 ^ (width - 1) : Nat) : Int) := by
  have hlow := signMagnitudeField_low_toNat (value := value) h2
  have hlt : value.toInt.natAbs % 2 ^ (width - 1) < 2 ^ 63 :=
    lt_of_lt_of_le (Nat.mod_lt _ (Nat.two_pow_pos _)) (Nat.pow_le_pow_right (by decide) (by omega))
  rw [signMagnitudeReadBack, signMagnitudeResult_toInt _ (hlow ▸ hlt), hlow, signMagnitudeField_sign h1 h2]
  by_cases hneg : value.toInt < 0 <;> simp [hneg]

theorem signMagnitudeReadBack_eq_iff (h1 : 1 ≤ width) (h2 : width ≤ 64) :
    signMagnitudeReadBack value width = value ↔
      -(2 ^ (width - 1) - 1 : Int) ≤ value.toInt ∧ value.toInt ≤ 2 ^ (width - 1) - 1 := by
  have hcast : ((2 ^ (width - 1) : Nat) : Int) = 2 ^ (width - 1) := by simp
  have hpos : 0 < 2 ^ (width - 1) := Nat.two_pow_pos _
  have hfits : value.toInt.natAbs % 2 ^ (width - 1) = value.toInt.natAbs ↔ value.toInt.natAbs < 2 ^ (width - 1) :=
    Nat.mod_eq_iff_lt hpos.ne'
  rw [← BitVec.toInt_inj, signMagnitudeReadBack_toInt h1 h2, ← hcast]
  generalize value.toInt.natAbs % 2 ^ (width - 1) = low at hfits
  generalize 2 ^ (width - 1) = half at hfits
  split <;> omega

/-! ## A field written where the Read Unit stands (R121) -/

theorem exec_wUint_of_room (inv : s.Inv) (hb : s.w.bound = true) (hroom : s.w.cur.toNat + width ≤ s.w.cap.toNat)
    (h1 : 1 ≤ width) (h2 : width ≤ 64) (value : Word) :
    exec (.wUint width value) s = .next ((s.writeFieldRaw value width).answer .ok 0) := by
  rw [exec, execWUint, widthLegal_iff.2 ⟨h1, h2⟩, write_of_room inv hb hroom]
  rfl

theorem readerAtField_of_write (h : ReadsWhatIsWritten s width) (value : Word) :
    ReaderAtField ((s.writeFieldRaw value width).answer .ok 0) width value where
  inv := inv_answer (inv_writeFieldRaw_of_fits h.inv h.wBound value h.room) .ok 0
  bound := h.rBound
  room := by simp [h.cur, h.cap, h.room]
  bits i hi := by
    simp only [answer_mem, answer_r, writeFieldRaw_mem, writeFieldRaw_r, h.base, h.cur]
    rw [sbit_writeField, if_pos (by omega), Nat.add_sub_cancel_left]

theorem responses_of_write_read (s : State) (value got : Word) (width : Nat) :
    ((((s.writeFieldRaw value width).answer .ok 0).advanceR width).answer .ok got).responses =
      s.responses ++ [⟨.ok, 0⟩, ⟨.ok, got⟩] := by simp

/-! ## The obligations -/

/-- Settles O23: a failure changes nothing, and growth copies the old bytes in order. -/
theorem growthKeepsTheStream : Obligations.GrowthKeepsTheStream := by
  intro s t bits inv hb hv h
  rcases wEnsure_next h with ⟨st, -, -, rfl⟩ | ⟨-, hf, -⟩ | ⟨-, -, g, hg, rfl⟩
  · exact streamKept_refl s
  · cases hv.symm.trans hf
  · have kept := streamKept_grow inv hb hv hg
    exact kept

/-- Settles O24: the check of the write keeps the stream, and the field write keeps every bit outside the field. -/
theorem growableWriteKeepsEarlierFields : Obligations.GrowableWriteKeepsEarlierFields := by
  intro s t width value inv hb hv h hmoved p hp hout
  rcases wUint_next h with ⟨st, -, -, rfl⟩ | ⟨-, -, g, hg, rfl⟩
  · exact absurd rfl hmoved
  · have hcur : g.w.cur = s.w.cur := (ensureOrFail_frame hg).cur
    have hkept := sbit_writeField g.mem g.w.base.toNat g.w.cur.toNat value width p
    rw [if_neg (by rw [hcur]; omega)] at hkept
    exact hkept.trans (streamKept_ensureOrFail inv hb hg p hp)

/-- Settles O29: W.INT runs W.UINT's own check and write, and the two others write a field that is one of W.UINT. -/
theorem writeCommandsShareOneField : Obligations.WriteCommandsShareOneField :=
  ⟨fun s _ h => execWBit_eq_execWUint h s, fun _ _ _ => rfl, fun _ _ value inv h1 h2 =>
    execWInts_eq_execWUint inv h1 h2 value⟩

/-- Settles O36: the reader stands at the field W.UINT wrote. -/
theorem roundTripUnsigned : Obligations.RoundTripUnsigned := by
  intro s width value h h1 h2
  exact ⟨_, _, _, exec_wUint_of_room h.inv h.wBound h.room h1 h2 value,
    (readerAtField_of_write h value).exec_rUint h1 h2, responses_of_write_read s value _ width,
    zeroExtended_toNat value width, zeroExtended_eq_iff⟩

/-- Settles O37: the reader stands at the field W.INT wrote, which is that of W.UINT. -/
theorem roundTripTwosComplement : Obligations.RoundTripTwosComplement := by
  intro s width value h h1 h2
  exact ⟨_, _, _, exec_wUint_of_room h.inv h.wBound h.room h1 h2 value,
    (readerAtField_of_write h value).exec_rInt h1 h2, responses_of_write_read s value _ width,
    rfl, signExtended_eq_iff h1 h2⟩

/-- Settles O38: the reader stands at the packed field W.INTS wrote. -/
theorem roundTripSignMagnitude : Obligations.RoundTripSignMagnitude := by
  intro s width value h h1 h2
  exact ⟨_, _, signMagnitudeReadBack value width, (execWInts_eq_execWUint h.inv h1 h2 value).trans
      (exec_wUint_of_room h.inv h.wBound h.room h1 h2 _),
    (readerAtField_of_write h _).exec_rInts h1 h2, responses_of_write_read s _ _ width,
    signMagnitudeReadBack_toInt h1 h2, signMagnitudeReadBack_eq_iff h1 h2⟩

/-- Settles O16: position i from the least significant bit is position 7 - i from the most significant. -/
theorem maskTablesHoldTheirBits : Obligations.MaskTablesHoldTheirBits := by
  have fromTop {o i : Nat} (ho : o < 8) (hi : i < 8) :
      7 - (7 - i) = i ∧ decide (7 - i = o) = decide (i = 7 - o) :=
    ⟨by omega, decide_eq_decide.2 (by omega)⟩
  refine ⟨fun k _ i hi => lowMask_bit k hi, fun o ho i hi => ?_, fun o ho i hi => ?_⟩ <;>
    obtain ⟨hpos, hdecide⟩ := fromTop ho hi
  · have h := setMask_bit ho (show 7 - i < 8 by omega)
    rwa [hpos, hdecide] at h
  · have h := clearMask_bit ho (show 7 - i < 8 by omega)
    rwa [hpos, hdecide] at h

/-- Settles O21: the seek from the start sets the cursor to the offset, and the tell answers the cursor. -/
theorem tellAfterSeekAnswersTheOffset : Obligations.TellAfterSeekAnswersTheOffset := by
  have target (offset cur cap : Word) : seekTarget .start offset cur cap = offset := BitVec.zero_add offset
  refine fun s offset => ⟨fun hb => ⟨_, enterW_pass hb _, ?_⟩, fun hb => ⟨_, enterR_pass hb _, ?_⟩⟩
  · rw [target]
    exact exec_wTell hb
  · rw [target]
    exact exec_rTell hb

end Sys2Proof.Machine
end

section
/-! PROOFS. The statements of 41_write_unit.md: the seek, the accessors, W.ENSURE, and the four write commands, each
of which stores one field. -/

namespace Sys2Proof.Machine

variable {s : State} {width : Nat} {value : Word} {bit : Nat → Bool}

/-! ## The packet checks (R86, R87, R133) -/

theorem widthLegal_false (h : width = 0 ∨ 64 < width) : widthLegal width = false := by
  rw [Bool.eq_false_iff, Ne, widthLegal_iff]
  omega

theorem bitLegal_false {b : Word} (h : 1 < b.toNat) : bitLegal b = false := by
  rw [Bool.eq_false_iff, Ne, bitLegal_iff]
  omega

theorem originLegal_of_ne {origin : Origin} (h : origin ≠ .reserved) : originLegal origin = true := by
  cases origin with
  | start | current | fromEnd => rfl
  | reserved => exact absurd rfl h

/-- An illegal operand is answered before the state is looked at (R201, R203). -/
theorem enterW_of_illegal {legal : Bool} (h : legal = false) (s : State) (k : Outcome) :
    s.enterW legal k = .next (s.answer .illegalCommand 0) := by
  rw [h, enterW_illegal]

/-! ## The seek (R130) -/

/-- The sum of the origin base and the offset wraps as the 64-bit cursor does. -/
theorem seekTarget_eq {origin : Origin} {cur cap : Word} {base : Nat} (offset : Word)
    (h : origin = .start ∧ base = 0 ∨ origin = .current ∧ base = cur.toNat ∨ origin = .fromEnd ∧ base = cap.toNat) :
    originLegal origin = true ∧
      seekTarget origin offset cur cap = BitVec.ofNat 64 ((base + offset.toNat) % 2 ^ 64) := by
  obtain ⟨hlegal, hbase⟩ : originLegal origin = true ∧ (originBase origin cur cap).toNat = base := by
    rcases h with ⟨rfl, rfl⟩ | ⟨rfl, rfl⟩ | ⟨rfl, rfl⟩ <;> exact ⟨rfl, rfl⟩
  refine ⟨hlegal, BitVec.eq_of_toNat_eq ?_⟩
  rw [seekTarget, BitVec.toNat_add, hbase, BitVec.toNat_ofNat, Nat.mod_mod]

/-! ## The field a write command stores (R105, R113) -/

theorem fieldPut_writeFieldRaw (hroom : s.w.cur.toNat + width ≤ s.w.cap.toNat) (h1 : 1 ≤ width)
    (hbit : ∀ i < width, bit i = fieldBit value width i) :
    FieldPut s ((s.writeFieldRaw value width).answer .ok 0) width bit := by
  have stored := writeField_stored s.mem s.w.base.toNat s.w.cur.toNat value h1
  exact ⟨rfl, advance_toNat hroom, fun i hi => (stored.inside i hi).trans (hbit i hi).symm, stored.outside,
    stored.bytes⟩

/-- Each outcome of a command that acts as W.UINT does, by the bind state, the variant and the capacity check. -/
theorem writesField_of_execWUint {i : Instr} (h1 : 1 ≤ width) (h2 : width ≤ 64)
    (hexec : ∀ s : State, s.Inv → exec i s = execWUint width value s)
    (hbit : ∀ k < width, bit k = fieldBit value width k) : WritesField i width bit := by
  intro s inv
  rw [hexec s inv, execWUint, widthLegal_iff.2 ⟨h1, h2⟩]
  cases hb : s.w.bound with
  | false => exact ⟨fun _ => enterW_unbound hb _, nofun, nofun, nofun, nofun⟩
  | true =>
    rw [enterW_pass hb]
    refine ⟨nofun, fun _ hv hfull => ?_, fun _ hv hroom => ?_, fun _ hv hno => ?_, fun _ hv hcov => ?_⟩
    · rw [ensureOrFail_fixed inv hb hv, if_neg (by omega), settle_short]
    · rw [ensureOrFail_fixed inv hb hv, if_pos hroom, settle_ready]
      exact ⟨_, rfl, fieldPut_writeFieldRaw hroom h1 hbit⟩
    · rcases ensureOrFail_growable inv hb hv (n := width) (by omega) with ⟨-, h⟩ | ⟨hcov, -⟩
      · rw [h, settle_short]
      · cases hno.symm.trans hcov
    · rcases ensureOrFail_growable inv hb hv (n := width) (by omega) with ⟨hno, -⟩ | ⟨-, g, h, -, grown, hcur, hroom⟩
      · cases hno.symm.trans hcov
      · rw [h, settle_ready]
        exact ⟨g, _, rfl, grown, fieldPut_writeFieldRaw (hcur ▸ hroom) h1 hbit⟩

/-- The field of W.INTS, from its first stream bit on: the sign, then the magnitude's low bits (R116). -/
theorem signMagnitudeField_fieldBit (h2 : width ≤ 64) {k : Nat} (hk : k < width) :
    (if k = 0 then decide (value.toInt < 0) else value.toInt.natAbs.testBit (width - 1 - k)) =
      fieldBit (signMagnitudeField value width) width k := by
  by_cases h0 : k = 0
  · rw [if_pos h0, fieldBit, h0, Nat.sub_zero, signMagnitudeField_sign (by omega) h2]
  · rw [if_neg h0, fieldBit, signMagnitudeField_magnitude (by omega) h2]

/-- The one-bit field of a legal W.BIT operand. -/
theorem bitOperand_fieldBit {b : Word} (h : b.toNat ≤ 1) {k : Nat} (hk : k < 1) :
    decide (b.toNat = 1) = fieldBit b 1 k := by
  rw [fieldBit, show 1 - 1 - k = 0 by omega, BitVec.getLsbD, Nat.testBit_zero, Nat.mod_eq_of_lt (by omega)]

/-! ## The obligations -/

/-- Settles O22: on a Growable sink the answers are those of `grow`. -/
theorem ensureAnswersOrGrows : Obligations.EnsureAnswersOrGrows := by
  intro s bits inv
  have hn : bits.toNat ≤ 2 ^ 64 := bits.isLt.le
  simp only [exec, execWEnsure]
  refine ⟨fun hb => enterW_unbound hb _, fun hb hv => ?_, fun hb hv hno => ?_, fun hb hv hcov => ?_⟩
  · rw [enterW_pass hb, hv]
    rfl
  · rw [enterW_pass hb, hv]
    rcases grow_cases inv hb hv hn with ⟨-, hcov, -⟩ | ⟨-, -, h⟩ | ⟨-, hcov, -⟩
    · cases hno.symm.trans hcov
    · simp only [h, settle_short]
    · cases hno.symm.trans hcov
  · obtain ⟨g, h, grown, -⟩ := grow_ready inv hb hv hn hcov
    rw [enterW_pass hb, hv]
    simp only [h, settle_ready]
    exact ⟨g, rfl, grown⟩

/-- Settles O25: W.BIT is W.UINT of width 1. -/
theorem writeBitStoresOneBit : Obligations.WriteBitStoresOneBit := fun _ =>
  ⟨fun hbad s => enterW_of_illegal (bitLegal_false hbad) s _, fun hb =>
    writesField_of_execWUint le_rfl (by decide) (fun s _ => execWBit_eq_execWUint hb s) fun _ hk =>
      bitOperand_fieldBit hb hk⟩

/-- Settles O26. -/
theorem writeUnsignedStoresTheField : Obligations.WriteUnsignedStoresTheField := fun _ _ =>
  ⟨fun hbad s => enterW_of_illegal (widthLegal_false hbad) s _, fun h1 h2 =>
    writesField_of_execWUint h1 h2 (fun _ _ => rfl) fun _ _ => rfl⟩

/-- Settles O27: W.INT runs W.UINT's own check and write. -/
theorem writeTwosComplementStoresTheField : Obligations.WriteTwosComplementStoresTheField := fun _ _ =>
  ⟨fun hbad s => enterW_of_illegal (widthLegal_false hbad) s _, fun h1 h2 =>
    writesField_of_execWUint h1 h2 (fun _ _ => rfl) fun _ _ => rfl⟩

/-- Settles O28: W.INTS is W.UINT of the packed sign and magnitude. -/
theorem writeSignMagnitudeStoresTheField : Obligations.WriteSignMagnitudeStoresTheField := fun _ value =>
  ⟨fun hbad s => enterW_of_illegal (widthLegal_false hbad) s _, fun h1 h2 =>
    writesField_of_execWUint h1 h2 (fun _ inv => execWInts_eq_execWUint inv h1 h2 value) fun _ hk =>
      signMagnitudeField_fieldBit h2 hk⟩

/-- Settles O17: the checks of the seek, and the target of each origin. -/
theorem writeSeekSetsTheCursor : Obligations.WriteSeekSetsTheCursor := by
  refine fun s offset => ⟨?_, fun hb origin hne => ?_, fun hb origin base h => ?_⟩
  · rw [exec, execWSeek, enterW_of_illegal (legal := originLegal .reserved) rfl]
  · rw [exec, execWSeek, originLegal_of_ne hne, enterW_unbound hb]
  · obtain ⟨hlegal, htarget⟩ := seekTarget_eq offset h
    rw [exec, execWSeek, hlegal, enterW_pass hb, htarget]
    rfl

/-- Settles O19: the three commands share one bind check and answer one field each. -/
theorem writeAccessorsAnswer : Obligations.WriteAccessorsAnswer := by
  refine fun s => ⟨fun hb i hi => ?_, fun hb => ⟨exec_wTell hb, enterW_pass hb _, _, ?_, enterW_pass hb _⟩⟩
  · simp only [List.mem_cons, List.not_mem_nil, or_false] at hi
    rcases hi with rfl | rfl | rfl <;> exact enterW_unbound hb _
  · exact Nat.mod_eq_of_lt (lt_of_le_of_lt (Nat.div_le_self _ _) s.w.cap.isLt)

end Sys2Proof.Machine
end

section
/-! PROOFS. The statements of 42_read_unit.md: the seek, the tell, and the four read commands, each of which answers a
reading of the one field at the cursor. -/

namespace Sys2Proof.Machine

variable {s : State} {width : Nat} {v : Word} {bit : Nat → Bool}

/-! ## The packet check (R166) -/

/-- An illegal operand is answered before the state is looked at (R201, R203). -/
theorem enterR_of_illegal {legal : Bool} (h : legal = false) (s : State) (k : Outcome) :
    s.enterR legal k = .next (s.answer .illegalCommand 0) := by
  rw [h, enterR_illegal]

/-! ## A bound reader with room stands at a field (R108, R109) -/

/-- The field is what `read_field_raw` answers. -/
theorem readerAtField_self (inv : s.Inv) (hb : s.r.bound = true) (hroom : s.r.cur.toNat + width ≤ s.r.cap.toNat)
    (h2 : width ≤ 64) : ReaderAtField s width (s.readFieldRaw width).1 where
  inv := inv
  bound := hb
  room := hroom
  bits i hi := by
    have hpos : width - 1 - (width - 1 - i) = i := by omega
    rw [fieldBit, State.readFieldRaw, readField_bit _ _ _ _ (by omega), hpos, decide_eq_true (by omega), Bool.true_and]

/-- A field of one bit is that bit. -/
theorem ReaderAtField.exec_rBit (h : ReaderAtField s 1 v) :
    exec .rBit s = .next ((s.advanceR 1).answer .ok (if v.getLsbD 0 then 1 else 0)) := by
  rw [exec, execRBit, read_of_room h.inv h.bound h.room, h.sign (le_refl 1)]
  rfl

/-! ## The outcomes of a read command (R202, R206) -/

/-- `BitsFrom bit width v`: the stream bits `bit`, the most significant first, are the low `width` bits of `v` (R9). -/
def BitsFrom (bit : Nat → Bool) (width : Nat) (v : Word) : Prop :=
  ∀ i < width, bit (width - 1 - i) = v.getLsbD i

theorem BitsFrom.first (h : BitsFrom bit width v) (h1 : 1 ≤ width) : bit 0 = v.getLsbD (width - 1) := by
  have hlast := h (width - 1) (by omega)
  rwa [Nat.sub_self] at hlast

/-- Each outcome of a command that passes its packet check, checks `width` bits and answers `value` of the field. -/
theorem readsField_of_checkedRead {i : Instr} {result : (Nat → Bool) → Word → Prop} {k : State → Outcome}
    {value : Word → Word} (h2 : width ≤ 64)
    (hexec : ∀ s : State, exec i s = s.enterR true (s.settle (s.checkOrFail width) k))
    (hread : ∀ {s v}, ReaderAtField s width v → exec i s = .next ((s.advanceR width).answer .ok (value v)))
    (hvalue : ∀ {bit v}, BitsFrom bit width v → result bit (value v)) : ReadsField i width result := by
  intro s inv
  refine ⟨fun hb => ?_, fun hb hshort => ?_, fun hb hroom => ?_⟩
  · rw [hexec, enterR_unbound hb]
  · rw [hexec, enterR_pass hb, checkOrFail_eq inv hb, if_neg (by omega), settle_short]
  · have field := readerAtField_self inv hb hroom h2
    exact ⟨_, _, hread field, advance_toNat hroom, hvalue fun _ => field.read_bit⟩

/-! ## What each command makes of the field (R163 to R165) -/

theorem zeroExtended_bits (h : BitsFrom bit width v) {i : Nat} (hi : i < 64) :
    ((v.setWidth width).setWidth 64).getLsbD i = (decide (i < width) && bit (width - 1 - i)) := by
  by_cases hlt : i < width
  · simp [hi, hlt, h i hlt]
  · simp [hlt]

theorem signExtended_bits (h : BitsFrom bit width v) (h1 : 1 ≤ width) {i : Nat} (hi : i < 64) :
    ((v.setWidth width).signExtend 64).getLsbD i = if i < width then bit (width - 1 - i) else bit 0 := by
  rw [BitVec.getLsbD_signExtend, decide_eq_true hi, Bool.true_and]
  by_cases hlt : i < width
  · simp [hlt, h i hlt]
  · simp [hlt, BitVec.msb_eq_getLsbD_last, h.first h1, show width - 1 < width by omega]

/-- The bits behind the sign are the field without its top bit. -/
theorem magnitude_bits (h : BitsFrom bit width v) {i : Nat} (hi : i < 64) :
    ((v.setWidth (width - 1)).setWidth 64).getLsbD i = (decide (i + 1 < width) && bit (width - 1 - i)) := by
  by_cases hlt : i + 1 < width
  · simp [hi, hlt, h i (by omega), show i < width - 1 by omega]
  · simp [hlt, show ¬i < width - 1 by omega]

/-- A magnitude of at most 63 bits is negated without overflow. -/
theorem signMagnitudeResult_field_toInt (h : BitsFrom bit width v) (h1 : 1 ≤ width) (h2 : width ≤ 64) :
    (signMagnitudeResult (if v.getLsbD (width - 1) then 1 else 0) ((v.setWidth (width - 1)).setWidth 64)).toInt =
      if bit 0 then -(((v.setWidth (width - 1)).setWidth 64).toNat : Int)
      else ((v.setWidth (width - 1)).setWidth 64).toNat := by
  have hsmall : ((v.setWidth (width - 1)).setWidth 64).toNat < 2 ^ 63 := by
    rw [zeroExtended_toNat]
    exact lt_of_lt_of_le (Nat.mod_lt _ (Nat.two_pow_pos _)) (Nat.pow_le_pow_right (by decide) (by omega))
  rw [signMagnitudeResult_toInt _ hsmall, h.first h1]

/-! ## The obligations -/

/-- Settles O31: the field of width 1 at the cursor is the bit. -/
theorem readBitAnswersTheBit : Obligations.ReadBitAnswersTheBit :=
  readsField_of_checkedRead (by decide) (fun _ => rfl) ReaderAtField.exec_rBit fun h => by
    rw [h.first (le_refl 1)]

/-- Settles O32. -/
theorem readUnsignedAnswersTheField : Obligations.ReadUnsignedAnswersTheField := fun _ =>
  ⟨fun hbad s => enterR_of_illegal (widthLegal_false hbad) s _, fun h1 h2 =>
    readsField_of_checkedRead h2 (fun s => by rw [exec, execRUint, widthLegal_iff.2 ⟨h1, h2⟩])
      (·.exec_rUint h1 h2) fun h _ => zeroExtended_bits h⟩

/-- Settles O33: the sign bit and the rest, read apart, are the field sign-extended. -/
theorem readTwosComplementAnswersTheField : Obligations.ReadTwosComplementAnswersTheField := fun _ =>
  ⟨fun hbad s => enterR_of_illegal (widthLegal_false hbad) s _, fun h1 h2 =>
    readsField_of_checkedRead h2 (fun s => by rw [exec, execRInt, widthLegal_iff.2 ⟨h1, h2⟩])
      (·.exec_rInt h1 h2) fun h _ => signExtended_bits h h1⟩

/-- Settles O34: the magnitude is the field without its first stream bit. -/
theorem readSignMagnitudeAnswersTheField : Obligations.ReadSignMagnitudeAnswersTheField := fun _ =>
  ⟨fun hbad s => enterR_of_illegal (widthLegal_false hbad) s _, fun h1 h2 =>
    readsField_of_checkedRead h2 (fun s => by rw [exec, execRInts, widthLegal_iff.2 ⟨h1, h2⟩])
      (·.exec_rInts h1 h2) fun h => ⟨_, fun _ => magnitude_bits h, signMagnitudeResult_field_toInt h h1 h2⟩⟩

/-- Settles O18: the checks of the seek, and the target of each origin. -/
theorem readSeekSetsTheCursor : Obligations.ReadSeekSetsTheCursor := by
  refine fun s offset => ⟨?_, fun hb origin hne => ?_, fun hb origin base h => ?_⟩
  · rw [exec, execRSeek, enterR_of_illegal (legal := originLegal .reserved) rfl]
  · rw [exec, execRSeek, originLegal_of_ne hne, enterR_unbound hb]
  · obtain ⟨hlegal, htarget⟩ := seekTarget_eq offset h
    rw [exec, execRSeek, hlegal, enterR_pass hb, htarget]
    rfl

/-- Settles O20: the command is its bind check and the answer. -/
theorem readTellAnswersTheCursor : Obligations.ReadTellAnswersTheCursor := fun _ =>
  ⟨fun hb => enterR_unbound hb _, exec_rTell⟩

end Sys2Proof.Machine
end

section
/-! PROOFS. The statements of 43_binding.md: a bind command binds exactly the region given or fails, and an unbind releases
an Owned buffer. -/

namespace Sys2Proof.Machine

variable {s : State}

/-! ## The region check (R188, R207) -/

theorem requireRegion_pass {base nbytes : Word} (h : regionFits s base nbytes) (k : Outcome) :
    s.requireRegion base nbytes k = k := if_pos (regionOk_iff.2 h)

theorem requireRegion_fail {base nbytes : Word} (h : ¬regionFits s base nbytes) (k : Outcome) :
    s.requireRegion base nbytes k = .next (s.answer .badRegion 0) := if_neg fun hr => h (regionOk_iff.1 hr)

/-! ## The checks of a bind command, in the order of R201 -/

section bindChecks
variable {bound : Bool} {base nbytes : Word}

theorem bindChecks_bound (hb : bound = true) (k : Outcome) :
    s.requireBound bound false k = .next (s.answer .badBindState 0) := requireBound_fail (by simp [hb]) k

theorem bindChecks_misfit (hb : bound = false) (hr : ¬regionFits s base nbytes) (k : Outcome) :
    s.requireBound bound false (s.requireRegion base nbytes k) = .next (s.answer .badRegion 0) :=
  (requireBound_pass hb _).trans (requireRegion_fail hr k)

theorem bindChecks_pass (hb : bound = false) (hr : regionFits s base nbytes) (k : Outcome) :
    s.requireBound bound false (s.requireRegion base nbytes k) = k :=
  (requireBound_pass hb _).trans (requireRegion_pass hr k)

end bindChecks

/-! ## The release events (R187) -/

theorem releasedW_owned (hv : s.w.variant = .fixed) (ho : s.w.own = .owned) :
    s.releasedW = [⟨s.w.token, s.w.base, s.w.cap.toNat / 8⟩] := by simp only [State.releasedW, hv, ho]

/-- A Growable sink is the core's own buffer and a Borrowed one the host's, so neither is released. -/
theorem releasedW_eq_nil (h : s.w.variant = .growable ∨ s.w.own = .borrowed) : s.releasedW = [] := by
  by_contra hne
  obtain ⟨hv, ho, -⟩ := releasedW_of_ne_nil hne
  simp [hv, ho] at h

theorem releasedR_owned (ho : s.r.own = .owned) : s.releasedR = [⟨s.r.token, s.r.base, s.r.cap.toNat / 8⟩] := by
  simp only [State.releasedR, ho]

theorem releasedR_borrowed (ho : s.r.own = .borrowed) : s.releasedR = [] := by simp only [State.releasedR, ho]

/-! ## The state after an unbind (R183, R186) -/

theorem disposeW_mem_of_fixed (hv : s.w.variant = .fixed) : s.disposeW.mem = s.mem := by
  cases ho : s.w.own <;> simp only [State.disposeW, State.release, hv, ho]

theorem unbindW_eq (s : State) :
    s.unbindW = { s with w := unboundW s.params s.draws, mem := s.disposeW.mem, relLog := s.relLog ++ s.releasedW,
                         draws := s.draws + 1 } := by
  rw [← disposeW_relLog]
  cases hv : s.w.variant with
  | fixed => cases ho : s.w.own <;> simp only [State.unbindW, State.disposeW, State.release, State.drawn, hv, ho]
  | growable => simp only [State.unbindW, State.disposeW, State.drawn, hv]

theorem unbindR_eq (s : State) :
    s.unbindR = { s with r := unboundR s.params s.draws, relLog := s.relLog ++ s.releasedR, draws := s.draws + 1 } := by
  rw [← disposeR_relLog]
  cases ho : s.r.own <;> simp only [State.unbindR, State.disposeR, State.release, State.drawn, ho]

/-! ## The obligations -/

/-- Settles O39: both commands make the checks of R201 and differ in the ownership and the token they bind. -/
theorem writeUnitBindsARegion : Obligations.WriteUnitBindsARegion := fun s _ nbytes _ =>
  ⟨fun hb => ⟨bindChecks_bound hb _, bindChecks_bound hb _⟩,
    fun hb hr => ⟨bindChecks_misfit hb hr _, bindChecks_misfit hb hr _⟩,
    fun hb hr => ⟨bitCapacity nbytes.toNat, bitCapacity_toNat hr.1,
      ⟨Config.freeWord s.draws .wToken, s.draws + 1, bindChecks_pass hb hr _⟩, bindChecks_pass hb hr _⟩⟩

/-- Settles O40, as O39: the checks are on the Read Unit's bind state. -/
theorem readUnitBindsARegion : Obligations.ReadUnitBindsARegion := fun s _ nbytes _ =>
  ⟨fun hb => ⟨bindChecks_bound hb _, bindChecks_bound hb _⟩,
    fun hb hr => ⟨bindChecks_misfit hb hr _, bindChecks_misfit hb hr _⟩,
    fun hb hr => ⟨bitCapacity nbytes.toNat, bitCapacity_toNat hr.1,
      ⟨Config.freeWord s.draws .rToken, s.draws + 1, bindChecks_pass hb hr _⟩, bindChecks_pass hb hr _⟩⟩

/-- Settles O42: the state after W.UNBIND is `unbindW`, whose log grew by `releasedW`. -/
theorem writeUnbindReleases : Obligations.WriteUnbindReleases := by
  refine fun s => ⟨fun hb => requireBound_fail (by simp [hb]) _, fun hb =>
    ⟨s.unbindW.answer .ok 0, requireBound_pass hb _, rfl, by rw [unbindW_eq]; rfl, fun hv ho => ?_, fun h => ?_,
      disposeW_mem_of_fixed, fun _ => disposeW_read_outside⟩⟩
  · rw [answer_relLog, unbindW_relLog, disposeW_relLog, releasedW_owned hv ho]
  · rw [answer_relLog, unbindW_relLog, disposeW_relLog, releasedW_eq_nil h, List.append_nil]

/-- Settles O43: the state after R.UNBIND is `unbindR`, whose log grew by `releasedR`. -/
theorem readUnbindReleases : Obligations.ReadUnbindReleases := by
  refine fun s => ⟨fun hb => requireBound_fail (by simp [hb]) _, fun hb =>
    ⟨s.unbindR.answer .ok 0, requireBound_pass hb _, rfl, by rw [unbindR_eq]; rfl, fun ho => ?_, fun ho => ?_⟩⟩
  · rw [answer_relLog, unbindR_relLog, disposeR_relLog, releasedR_owned ho]
  · rw [answer_relLog, unbindR_relLog, disposeR_relLog, releasedR_borrowed ho, List.append_nil]

end Sys2Proof.Machine
end

section
/-! PROOFS. The statements of 60_exceptions.md: the status of every packet, what a failure leaves, which packets are illegal
in every state, what binds and unbinds a unit, the idle step, and the status codes. -/

namespace Sys2Proof.Machine

variable {s t : State} {p : Packet}

/-! ## One response with a given status (R200, R201) -/

/-- The outcome is a next state that gives one response more than `s`, of the status `st`. -/
def Responds (s : State) (st : Status) (o : Outcome) : Prop :=
  ∃ t v, o = .next t ∧ t.responses = s.responses ++ [⟨st, v⟩]

theorem responds_fail (s : State) (st : Status) : Responds s st (s.fail st) := ⟨_, 0, rfl, rfl⟩

theorem responds_respond (h : t.responses = s.responses) (v : Word) : Responds s .ok (t.respond v) :=
  ⟨_, v, rfl, by rw [answer_responses, h]⟩

/-! ## The status of each check, in the order of R201 -/

section checks
variable {st : Status} {k : Outcome} {n : Nat}

/-- Step 4: the status is BadBindState in the state opposite to the one wanted. -/
theorem responds_requireBound {b want : Bool} (h : b = want → Responds s st k) :
    Responds s (if b = !want then .badBindState else st) (s.requireBound b want k) := by
  by_cases hb : b = want
  · rw [requireBound_pass hb, if_neg (by simp [hb])]
    exact h hb
  · rw [requireBound_fail hb, if_pos (Bool.eq_not_of_ne hb)]
    exact responds_fail s .badBindState

theorem responds_enterW {legal : Bool} (hl : legal = true) (h : s.w.bound = true → Responds s st k) :
    Responds s (if s.w.bound = false then .badBindState else st) (s.enterW legal k) :=
  hl ▸ responds_requireBound h

theorem responds_enterR {legal : Bool} (hl : legal = true) (h : s.r.bound = true → Responds s st k) :
    Responds s (if s.r.bound = false then .badBindState else st) (s.enterR legal k) :=
  hl ▸ responds_requireBound h

/-- Step 5. -/
theorem responds_requireRegion {base nbytes : Word} (h : Responds s .ok k) :
    Responds s (if regionFits s base nbytes then .ok else .badRegion) (s.requireRegion base nbytes k) := by
  by_cases hr : regionFits s base nbytes
  · rw [requireRegion_pass hr, if_pos hr]
    exact h
  · rw [requireRegion_fail hr, if_neg hr]
    exact responds_fail s .badRegion

/-- The shape of the commands that bind a unit to a region of the host's. -/
theorem responds_bind {bound : Bool} {base nbytes : Word} (h : t.responses = s.responses) :
    Responds s (if bound = true then .badBindState else if regionFits s base nbytes then .ok else .badRegion)
      (s.requireBound bound false (s.requireRegion base nbytes (t.respond 0))) :=
  responds_requireBound fun _ => responds_requireRegion (responds_respond h 0)

/-- Step 6 of a write command: the check of its `n` bits on a Fixed and on a Growable sink (R205, R208). -/
theorem responds_store (inv : s.Inv) (hb : s.w.bound = true) (hn : n ≤ 64) {f : State → State}
    (hf : ∀ g, (f g).responses = g.responses) :
    Responds s (writeStatus s n) (s.settle (s.ensureOrFail n) fun g => (f g).respond 0) := by
  cases hv : s.w.variant with
  | fixed =>
    simp only [writeStatus, hv, ensureOrFail_fixed inv hb hv]
    by_cases hfit : s.w.cur.toNat + n ≤ s.w.cap.toNat
    · rw [if_pos hfit, if_pos hfit]
      exact responds_respond (hf s) 0
    · rw [if_neg hfit, if_neg hfit]
      exact responds_fail s .insufficientSpace
  | growable =>
    simp only [writeStatus, hv]
    rcases ensureOrFail_growable inv hb hv (n := n) (by omega) with ⟨hno, h⟩ | ⟨hcov, g, h, -⟩
    · rw [h, hno]
      exact responds_fail s .growthExhausted
    · rw [h, hcov]
      exact responds_respond ((hf g).trans (ensureOrFail_frame h).responses) 0

/-- Step 6 of a read command (R206). -/
theorem responds_fetch (inv : s.Inv) (hb : s.r.bound = true) {f : State → State} {v : State → Word}
    (hf : (f s).responses = s.responses) :
    Responds s (readStatus s n) (s.settle (s.checkOrFail n) fun g => (f g).respond (v g)) := by
  rw [readStatus, checkOrFail_eq inv hb]
  by_cases hfit : s.r.cur.toNat + n ≤ s.r.cap.toNat
  · rw [if_pos hfit, if_pos hfit]
    exact responds_respond hf (v s)
  · rw [if_neg hfit, if_neg hfit]
    exact responds_fail s .insufficientData

/-- Step 6 of W.ENSURE, which a Fixed sink always answers OK (R132, R208). -/
theorem responds_ensure (inv : s.Inv) (bits : Word) :
    Responds s (if s.w.bound = false then .badBindState else ensureStatus s bits.toNat) (execWEnsure bits s) := by
  refine responds_enterW rfl fun hb => ?_
  cases hv : s.w.variant with
  | fixed =>
    simp only [ensureStatus, hv]
    exact responds_respond rfl _
  | growable =>
    simp only [ensureStatus, hv]
    cases hcov : heapCovers s bits.toNat with
    | false =>
      rcases grow_cases inv hb hv bits.isLt.le with ⟨-, h, -⟩ | ⟨-, -, h⟩ | ⟨-, h, -⟩
      · cases hcov.symm.trans h
      · rw [h]
        exact responds_fail s .growthExhausted
      · cases hcov.symm.trans h
    | true =>
      obtain ⟨g, h, -⟩ := grow_ready inv hb hv bits.isLt.le hcov
      rw [h]
      exact responds_respond (grow_frame h).responses 1

end checks

/-- A command that passes steps 1 to 3 of R201 is answered with the status of steps 4 to 6. -/
theorem exec_responds (inv : s.Inv) {i : Instr} (hl : argsLegal i = true) : Responds s (stateStatus s i) (exec i s) := by
  cases i with
  | wBorrow | wOwn | rBorrow | rOwn => exact responds_bind rfl
  | wAlloc => exact responds_requireBound fun _ => responds_respond rfl 0
  | wUnbind => exact responds_requireBound fun _ => responds_respond (unbindW_responses s) 0
  | rUnbind => exact responds_requireBound fun _ => responds_respond (unbindR_responses s) 0
  | wSeek => exact responds_enterW hl fun _ => responds_respond rfl 0
  | wTell | wData | wSize => exact responds_enterW rfl fun _ => responds_respond rfl _
  | wEnsure bits => exact responds_ensure inv bits
  | wBit bit => exact responds_enterW hl fun hb => responds_store inv hb (by decide) fun _ => rfl
  | wUint width value | wInt width value | wInts width value =>
    exact responds_enterW hl fun hb => responds_store inv hb (widthLegal_iff.1 hl).2 fun _ => rfl
  | rSeek => exact responds_enterR hl fun _ => responds_respond rfl 0
  | rTell => exact responds_enterR rfl fun _ => responds_respond rfl _
  | rBit => exact responds_enterR rfl fun hb => responds_fetch inv hb rfl
  | rUint | rInt | rInts => exact responds_enterR hl fun hb => responds_fetch inv hb rfl

/-! ## What answering a packet can be -/

/-- An illegal packet is answered IllegalCommand in every state (R203): its word is reserved, or its command refuses its
argument or operand. -/
theorem runPacket_illegal (h : illegalPacket p) : runPacket p s = .next (s.answer .illegalCommand 0) := by
  cases hd : decode p with
  | error e => exact runPacket_reserved ((decode_error_iff p).1 ⟨e, hd⟩)
  | ok i => rw [runPacket_ok hd, exec_legal i s ((illegal_iff hd).1 h)]

/-- A packet that is not illegal is a command that passes steps 1 to 3 of R201. -/
theorem decode_of_not_illegal (h : ¬illegalPacket p) : ∃ i, decode p = .ok i ∧ argsLegal i = true := by
  obtain ⟨i, hd⟩ := decode_of_not_reserved fun hr => h (.inl hr)
  exact ⟨i, hd, by simpa [illegal_iff hd] using h⟩

theorem runPacket_responds (inv : s.Inv) (p : Packet) : Responds s (prescribedStatus s p) (runPacket p s) := by
  by_cases hill : illegalPacket p
  · rw [runPacket_illegal hill, prescribedStatus, if_pos hill]
    exact responds_fail s .illegalCommand
  · obtain ⟨i, hd, hl⟩ := decode_of_not_illegal hill
    rw [runPacket_ok hd, prescribedStatus, if_neg hill, hd]
    exact exec_responds inv hl

/-- An answered packet failed, with IllegalCommand only if it is illegal, or its command had the effect of its kind. -/
theorem runPacket_effect (h : runPacket p s = .next t) :
    (∃ st, st ≠ .ok ∧ (st = .illegalCommand → illegalPacket p) ∧ t = s.answer st 0) ∨
      ∃ i, decode p = .ok i ∧ Effect s (commandKind i) t := by
  rcases runPacket_next h with ⟨e, hd, ht⟩ | ⟨i, hd, hi⟩
  · exact .inl ⟨_, by decide, fun _ => .inl ((decode_error_iff p).1 ⟨e, hd⟩), ht⟩
  · rcases exec_effect hi with ⟨st, hst, hill, ht⟩ | he
    · exact .inl ⟨st, hst, fun e => (illegal_iff hd).2 (hill e), ht⟩
    · exact .inr ⟨i, hd, he⟩

theorem effect_responses {kind : CommandKind} (h : Effect s kind t) : ∃ v, t.responses = s.responses ++ [⟨.ok, v⟩] := by
  cases h with
  | growW _ _ grown => exact ⟨1, by rw [answer_responses, (grow_frame grown).responses]⟩
  | store _ _ ready => exact ⟨0, by rw [answer_responses, (ensureOrFail_frame ready).responses]⟩
  | unbindW => exact ⟨0, by rw [answer_responses, unbindW_responses]⟩
  | unbindR => exact ⟨0, by rw [answer_responses, unbindR_responses]⟩
  | lendW | allocW | seekW | lendR | seekR => exact ⟨0, rfl⟩
  | tellW v | ensureW v | tellR v | fetch v => exact ⟨v, rfl⟩

/-- A packet whose response is a failure only had that response given. -/
theorem runPacket_of_failure {a : Response} (h : runPacket p s = .next t) (ha : t.responses = s.responses ++ [a])
    (hfail : a.status ≠ .ok) : t = s.answer a.status 0 ∧ a.result = 0 ∧ (a.status = .illegalCommand → illegalPacket p) := by
  rcases runPacket_effect h with ⟨st, -, hill, rfl⟩ | ⟨i, -, he⟩
  · obtain rfl : (⟨st, 0⟩ : Response) = a := by simpa using ha
    exact ⟨rfl, rfl, hill⟩
  · obtain ⟨v, hv⟩ := effect_responses he
    obtain rfl : (⟨.ok, v⟩ : Response) = a := by simpa using hv.symm.trans ha
    exact absurd rfl hfail

/-! ## The bind states (R233) -/

def CommandKind.binds : CommandKind → Bool
  | .lendW | .allocW | .lendR => true
  | .unbindW | .seekW | .tellW | .ensureW | .store _ | .unbindR | .seekR | .tellR | .fetch _ => false

theorem isBindCommand_eq (i : Instr) : isBindCommand i = (commandKind i).binds := by cases i <;> rfl

/-- What a step of the two-state machine of R233 must have been: `before` and `after` are the bind states of the Write Unit
(`write` true) or of the Read Unit, whose unbind command is `unbind`. -/
structure BoundChange (s t : State) (write : Bool) (unbind : Instr) (before after : Bool) : Prop where
  bound : before = false → after = true → ∃ p rest i, s.pending = .command p :: rest ∧ decode p = .ok i ∧
    isWriteCommand i = write ∧ isBindCommand i = true ∧ t.responses = s.responses ++ [⟨.ok, 0⟩]
  unbound : before = true → after = false →
    (∃ p rest, s.pending = .command p :: rest ∧ decode p = .ok unbind) ∨ ∃ rest, s.pending = .reset :: rest

section boundChange
variable {write before after : Bool} {unbind : Instr}

theorem boundChange_of_eq (h : after = before) : BoundChange s t write unbind before after :=
  ⟨fun h0 h1 => by simp [h, h0] at h1, fun h1 h0 => by simp [h, h1] at h0⟩

theorem boundChange_of_reset {rest : List HostAction} (h : s.pending = .reset :: rest) :
    BoundChange s t write unbind before false := ⟨nofun, fun _ _ => .inr ⟨rest, h⟩⟩

/-- What the effect of a kind of command may do to the bind state of one unit: keep it, bind the unit and answer OK, or, as
that unit's unbind, unbind it. -/
def BoundByKind (s t : State) (kind unbindKind : CommandKind) (write before after : Bool) : Prop :=
  after = before ∨
    (before = false ∧ kind.ofWriteUnit = write ∧ kind.binds = true ∧ t.responses = s.responses ++ [⟨.ok, 0⟩]) ∨
    (after = false ∧ kind = unbindKind)

theorem boundChange_of_kind {rest : List HostAction} {i : Instr} {unbindKind : CommandKind}
    (hp : s.pending = .command p :: rest) (hd : decode p = .ok i) (hu : commandKind i = unbindKind → i = unbind)
    (h : BoundByKind s t (commandKind i) unbindKind write before after) :
    BoundChange s t write unbind before after := by
  rcases h with h | ⟨rfl, hw, hb, ht⟩ | ⟨rfl, hk⟩
  · exact boundChange_of_eq h
  · exact ⟨fun _ _ => ⟨p, rest, i, hp, hd, (isWriteCommand_eq i).trans hw, (isBindCommand_eq i).trans hb, ht⟩, nofun⟩
  · exact ⟨nofun, fun _ _ => .inl ⟨p, rest, hp, hu hk ▸ hd⟩⟩

end boundChange

theorem effect_boundW {kind : CommandKind} (h : Effect s kind t) :
    BoundByKind s t kind .unbindW true s.w.bound t.w.bound := by
  have frame := effect_frame h
  cases h with
  | lendW _ _ _ _ _ unbound => exact .inr (.inl ⟨unbound, rfl, rfl, rfl⟩)
  | allocW _ unbound => exact .inr (.inl ⟨unbound, rfl, rfl, rfl⟩)
  | unbindW => exact .inr (.inr ⟨rfl, rfl⟩)
  | growW _ _ grown => exact .inl (grow_frame grown).bound
  | store _ _ ready => exact .inl (ensureOrFail_frame ready).bound
  | seekW | tellW | ensureW => exact .inl rfl
  | lendR | unbindR | seekR | tellR | fetch => exact .inl (congrArg WriteUnit.bound (frame.w rfl))

theorem effect_boundR {kind : CommandKind} (h : Effect s kind t) :
    BoundByKind s t kind .unbindR false s.r.bound t.r.bound := by
  have frame := effect_frame h
  cases h with
  | lendR _ _ _ _ _ unbound => exact .inr (.inl ⟨unbound, rfl, rfl, rfl⟩)
  | unbindR => exact .inr (.inr ⟨rfl, rfl⟩)
  | seekR | tellR | fetch => exact .inl rfl
  | lendW | allocW | unbindW | seekW | tellW | ensureW | growW | store =>
    exact .inl (congrArg ReadUnit.bound (frame.r rfl))

/-- By the host's next action: only a command or a reset changes a bind state. -/
theorem step_boundChange (h : step s = .next t) :
    BoundChange s t true .wUnbind s.w.bound t.w.bound ∧ BoundChange s t false .rUnbind s.r.bound t.r.bound := by
  rcases step_cases s with ⟨-, hs⟩ | ⟨p, rest, hp, hs⟩ | ⟨a, v, rest, -, hs⟩ | ⟨rest, hp, hs⟩ <;> rw [hs] at h
  · obtain rfl := next_inj.1 h
    exact ⟨boundChange_of_eq rfl, boundChange_of_eq rfl⟩
  · rcases runPacket_effect h with ⟨st, -, -, rfl⟩ | ⟨i, hd, he⟩
    · exact ⟨boundChange_of_eq rfl, boundChange_of_eq rfl⟩
    · have w := effect_boundW he
      have r := effect_boundR he
      exact ⟨boundChange_of_kind hp hd eq_wUnbind_of_kind w, boundChange_of_kind hp hd eq_rUnbind_of_kind r⟩
  · obtain ⟨-, -, rfl⟩ := hostWrite_next h
    exact ⟨boundChange_of_eq rfl, boundChange_of_eq rfl⟩
  · obtain rfl := next_inj.1 h
    exact ⟨boundChange_of_reset hp, boundChange_of_reset hp⟩

/-! ## The status codes (R200) -/

theorem ofCode_code (st : Status) : Status.ofCode st.code = some st := by cases st <;> rfl

theorem ofCode_eq_some_iff {c : BitVec 4} {st : Status} : Status.ofCode c = some st ↔ st.code = c := by
  refine ⟨fun h => ?_, fun h => h ▸ ofCode_code st⟩
  have codes : ∀ c : BitVec 4, ∀ st ∈ Status.ofCode c, st.code = c := by decide
  exact codes c st h

/-! ## The obligations -/

/-- Settles O12: the step runs the packet, which is illegal, or a command whose checks come in the order of R201. -/
theorem statusFollowsThePriority : Obligations.StatusFollowsThePriority := by
  intro s p rest inv hp
  rw [step_command hp]
  have responds := runPacket_responds (inv_pending inv rest) p
  exact responds

/-- Settles O13: an effect answers OK, so the packet failed. -/
theorem failureChangesNothing : Obligations.FailureChangesNothing := by
  intro s t p rest a hp h ha hfail
  rw [step_command hp] at h
  obtain ⟨rfl, hresult, -⟩ := runPacket_of_failure h ha hfail
  refine ⟨hresult, ?_⟩
  rw [← hresult]
  rfl

/-- Settles O14: no failure but an illegal packet's is IllegalCommand. -/
theorem illegalCommandDependsOnThePacketAlone : Obligations.IllegalCommandDependsOnThePacketAlone := by
  intro s p rest hp
  rw [step_command hp]
  refine ⟨runPacket_illegal, fun t v h ht => ?_⟩
  obtain ⟨-, -, hill⟩ := runPacket_of_failure h ht (by simp)
  exact hill rfl

/-- Settles O45: the two units' parts of the two-state machine. -/
theorem bindStateChangesOnlyByBindAndUnbind : Obligations.BindStateChangesOnlyByBindAndUnbind := by
  intro s t h
  obtain ⟨⟨bindW, unbindW⟩, ⟨bindR, unbindR⟩⟩ := step_boundChange h
  exact ⟨bindW, unbindW, bindR, unbindR⟩

/-- Settles O8. -/
theorem idleStepHoldsTheState : Obligations.IdleStepHoldsTheState := fun s h => by simp only [step, h]

/-- Settles O15: `ofCode` inverts `code`, and is none at the nine other codes. -/
theorem statusCodesAreDistinct : Obligations.StatusCodesAreDistinct :=
  ⟨rfl, rfl, rfl, rfl, rfl, rfl, rfl, fun _ _ => ofCode_eq_some_iff, by decide⟩

end Sys2Proof.Machine
end
